-- ==== Sys2Proof/Word.lean ====
section
/-! DEFINITION. The widths the block works in (spec/00_scope.md R6, R8; spec/30_encoding.md R66). Bit `i` of every word has
weight `2^i` (R8, spec/20_memory.md R41), which is how `BitVec` numbers its bits. -/

namespace Sys2Proof

/-- A 64-bit word: the input pattern, the accumulator and the result (R6, CAP = 64). -/
abbrev Word := BitVec 64

/-- A descriptor field as the ports carry it: `tot_bits_i` and `exp_bits_i` are 8 bits wide (10_state.md R25). -/
abbrev Byte := BitVec 8

/-- A request word `REQ[79:0]` (30_encoding.md R66). -/
abbrev ReqWord := BitVec 80

/-- A response word `RSP[64:0]` (30_encoding.md R67). -/
abbrev RspWord := BitVec 65

end Sys2Proof
end

