-- ==== Sys2Proof/Config.lean ====
section
/-! DEFINITION. What is fixed for the hardware (spec/00_scope.md R6), what an implementation chooses (R7), and the values the
spec leaves unspecified, as constants without a body. -/

namespace Sys2Proof

/-- The bit capacity of every word (R6). -/
abbrev CAP : Nat := 64
/-- The width of the binary64 exponent field (R6). -/
abbrev D_EXP_BITS : Nat := 11
/-- The width of the binary64 fraction field (R6). -/
abbrev D_FRAC_BITS : Nat := 52
/-- The binary64 exponent bias (R6). -/
abbrev D_BIAS : Nat := 1023
/-- The all-ones binary64 exponent (R6). -/
abbrev D_EXP_MAX : Nat := 2047
/-- The least legal totBits (R6). -/
abbrev TOT_MIN : Nat := 3
/-- The greatest legal totBits (R6). -/
abbrev TOT_MAX : Nat := 64
/-- The least legal expBits (R6). -/
abbrev EXP_MIN : Nat := 1
/-- The greatest legal expBits of a totBits (R6); only meaningful for `totBits ≥ TOT_MIN`. -/
abbrev EXP_MAX (totBits : Nat) : Nat := totBits - 2

/-- Parameter P_SUBNORM_EXP_PACK (R7): what becomes of a binary64 subnormal whose rebiased exponent does not fit. -/
inductive SubnormExpPack where
  /-- The low expBits bits of the exponent are packed (the default). -/
  | masked
  /-- The whole result is unconstrained. -/
  | any
  deriving DecidableEq, Repr

/-- Parameter P_BITRANGE (R7): what a bit-field primitive does when its range precondition is violated. -/
inductive BitRange where
  /-- `raise Fault(InvalidBitRange, …)` (the default). -/
  | fault
  /-- The operation acts on the positions below 64 only. -/
  | masked
  deriving DecidableEq, Repr

/-- The two parameters of R7 that decide values. The third, LATENCY, is the number of pipeline stages of the state
(`Machine.State.latency`), so it has one home (log entry 6, DESIGN CHOICE). -/
structure Params where
  subnormExpPack : SubnormExpPack
  bitRange       : BitRange
  deriving DecidableEq, Repr

/-- The defaults of R7. -/
def Params.default : Params where
  subnormExpPack := .masked
  bitRange       := .fault

/-! The free values: nothing in Lean can evaluate one. Each is applied to the counter `State.draws` (log entry 10, DESIGN CHOICE), so that two
uses are two values. -/

/-- The unconstrained draw of 43_encode.md R175 under P_SUBNORM_EXP_PACK = `any`. -/
opaque Config.freeResult : Nat → Word
/-- `result_o` while it carries no result: when `fault_o = 1` (60_exceptions.md R201) or `out_valid_o = 0` (10_state.md R26). -/
opaque Config.freeResultPort : Nat → Word
/-- `fault_o` while `out_valid_o = 0` (10_state.md R26). -/
opaque Config.freeFaultPort : Nat → Bool
/-- `new_exp` of a REBIAS on operands of no legal descriptor (log entry 11, DESIGN CHOICE). -/
opaque Config.freeNewExp : Nat → Int
/-- `fw` of a REBIAS on operands of no legal descriptor (log entry 11, DESIGN CHOICE). -/
opaque Config.freeFw : Nat → BitVec 52
/-- `is_nan` of a REBIAS on operands of no legal descriptor (log entry 11, DESIGN CHOICE). -/
opaque Config.freeIsNan : Nat → Bool
/-- `frac_out` of an ADAPT whose fracBits is outside 1 to 62 (log entry 11, DESIGN CHOICE). -/
opaque Config.freeFracOut : Nat → BitVec 62

end Sys2Proof
end

