-- ==== Sys2Proof/Machine/State.lean ====
section
/-! DEFINITION. The state as plain data: ports, pipeline, the run's record (spec/10_state.md, spec/60_exceptions.md R200 to R203,
spec/70_reset_and_hazards.md R232, R238), and the state after reset. The block has no registers, program counter, flags or
memory (10_state.md R20 to R23, R29, R30; 20_memory.md R40). -/

namespace Sys2Proof.Machine

/-- Which half of the descriptor precondition failed; totBits is tested first (43_encode.md R171, 60_exceptions.md R204). -/
inductive DescriptorField where
  | totBits
  | expBits
  deriving DecidableEq, Repr

/-- The fault causes of 60_exceptions.md section 1 with their recorded info. The block reports a fault in the response of the
request and goes on (R201, R206), so both are taken in a NEXT state, which records them; no meaning ends a run with one (log
entry 7, DEDUCED). -/
inductive Fault where
  /-- Code 1, raised by ENCODE on an illegal descriptor (R200). Safe: the spec names it, and no result is given. -/
  | preconditionViolation (which : DescriptorField) (totBits expBits : Byte)
  /-- Code 2, raised by GETBIT, GETBITFLD, SETBIT and SETBITFLD applied directly, out of range, under P_BITRANGE = `fault` (R203).
  Safe: the spec names it, and no result is given. -/
  | invalidBitRange (pos width : Nat)
  deriving DecidableEq, Repr

/-- Why an instruction has no meaning. -/
inductive Refusal where
  /-- An arm of `exec` without a meaning; there is none. Safe: the run stops. -/
  | notModelled (mnemonic : String)
  deriving DecidableEq, Repr

/-- The input ports (10_state.md R25). `clk_i` is no field: a step is one rising edge of it (log entry 3, DESIGN CHOICE). -/
structure Inputs where
  val_i      : Word
  tot_bits_i : Byte
  exp_bits_i : Byte
  in_valid_i : Bool
  rst_i      : Bool
  deriving DecidableEq, Repr

/-- The output ports (10_state.md R26). -/
structure Outputs where
  result_o    : Word
  fault_o     : Bool
  out_valid_o : Bool
  deriving DecidableEq, Repr

/-- The response to one request (10_state.md R26, 30_encoding.md R67): a result, or a fault and then no result at all (R201). -/
inductive Response where
  | result (r : Word)
  | fault (f : Fault)
  deriving DecidableEq, Repr

/-- What an internal sub-function applied directly has put out (log entry 9, DESIGN CHOICE). -/
inductive SubResult where
  /-- None has been applied. -/
  | idle
  /-- GETBIT (40_bitfield.md R100). -/
  | bit (b : BitVec 1)
  /-- GETBITFLD (R101): right-aligned. -/
  | field (v : Word)
  /-- SETBIT and SETBITFLD (R102, R103): the updated word. -/
  | word (w : Word)
  /-- REBIAS (41_exponent_rebias.md R120). -/
  | rebias (newExp : Int) (fw : BitVec 52) (isNan : Bool)
  /-- ADAPT (42_fraction_adapter.md R150). -/
  | frac (fracOut : BitVec 62)
  /-- A fault, and no result (00_scope.md R11). -/
  | raised (f : Fault)
  deriving DecidableEq, Repr

/-- The machine. -/
structure State where
  /-- P_SUBNORM_EXP_PACK and P_BITRANGE (00_scope.md R7); no operation writes them (log entry 16, DESIGN CHOICE). -/
  params    : Params
  /-- The values on the input ports (10_state.md R25). -/
  inp       : Inputs
  /-- The values on the output ports (10_state.md R26). -/
  out       : Outputs
  /-- The pipeline stages, the input side first: `none` is a stage whose valid bit is 0 (10_state.md R28; log entry 4, DESIGN
  CHOICE; log entry 5, DEDUCED). -/
  pipe      : List (Option Response)
  /-- The run's responses, the first one first (20_memory.md R47). -/
  responses : List Response
  /-- The fault the run has met, never cleared (60_exceptions.md R201). -/
  fault     : Option Fault
  /-- The result of the internal sub-function applied last (log entry 9, DESIGN CHOICE). -/
  sub       : SubResult
  /-- What the host will put on the input ports, one entry a cycle (log entry 1, DESIGN CHOICE). -/
  host      : List Inputs
  /-- How many steps have drawn free values (log entry 10, DESIGN CHOICE). -/
  draws     : Nat
  deriving DecidableEq, Repr

/-- LATENCY (00_scope.md R7): the number of pipeline stages; 0 is the combinational implementation (log entry 6, DESIGN CHOICE). -/
def State.latency (s : State) : Nat := s.pipe.length

/-- The state after reset of an implementation with the given parameters: every valid bit is 0 and so is `out_valid_o`
(70_reset_and_hazards.md R232). The port values are log entry 2, DESIGN CHOICE. -/
def State.resetWith (latency : Nat) (params : Params) : State where
  params    := params
  inp       := { val_i := 0, tot_bits_i := 3, exp_bits_i := 1, in_valid_i := false, rst_i := false }
  out       := { result_o := 0, fault_o := false, out_valid_o := false }
  pipe      := List.replicate latency none
  responses := []
  fault     := none
  sub       := .idle
  host      := []
  draws     := 0

/-- The state after reset at the defaults of R7; LATENCY has no default, and 0 is log entry 6, DESIGN CHOICE. -/
def State.reset : State := State.resetWith 0 Params.default

end Sys2Proof.Machine
end

