-- ==== Sys2Proof/Machine/Ops.lean ====
section
/-! DEFINITION. The operations every step is made of: recording a fault, putting a response on the outputs, moving the pipeline
at a clock edge, reset, and putting out the result of an internal sub-function. -/

namespace Sys2Proof.Machine

/-- The fault code (60_exceptions.md R200, R203). -/
def Fault.code : Fault → Nat
  | .preconditionViolation _ _ _ => 1
  | .invalidBitRange _ _ => 2

/-- The fault a response reports, if it reports one (60_exceptions.md R201). -/
def Response.faultOf : Response → Option Fault
  | .result _ => none
  | .fault f => some f

/-- TAKING A FAULT: the run records it, and no later one replaces it (60_exceptions.md R201). Nothing else happens: no state is
saved, no mode changes, control goes nowhere (R206), and there is no return (R207). -/
def State.recordFault (f : Fault) (s : State) : State :=
  { s with fault := some (s.fault.getD f) }

/-- What the output ports show of a response (10_state.md R26), `n` naming the free values: `result_o` is unspecified beside a
fault (60_exceptions.md R201), and both values are while `out_valid_o` is 0. -/
def portsOf (n : Nat) : Option Response → Outputs
  | some (.result r) => { result_o := r, fault_o := false, out_valid_o := true }
  | some (.fault _) => { result_o := Config.freeResultPort n, fault_o := true, out_valid_o := true }
  | none => { result_o := Config.freeResultPort n, fault_o := Config.freeFaultPort n, out_valid_o := false }

/-- The response word on the output ports, `RSP = fault, result` from the top (30_encoding.md R67). -/
def Outputs.rsp (o : Outputs) : RspWord := BitVec.ofBool o.fault_o ++ o.result_o

/-- A response reaches the outputs, or none does: the ports show it, the run's list takes it, and a fault it reports is
recorded (20_memory.md R47, 60_exceptions.md R201). -/
def State.deliver (rsp : Option Response) (s : State) : State :=
  { s with
    out := portsOf s.draws rsp
    responses := s.responses ++ rsp.toList
    fault := s.fault <|> rsp.bind Response.faultOf
    draws := s.draws + 1 }

/-- The pipeline after an edge at which `new` enters it: every stage hands on, the last one's request leaves (10_state.md R28). -/
def shiftPipe (new : Option Response) (pipe : List (Option Response)) : List (Option Response) :=
  (new :: pipe).dropLast

/-- What the outputs show after that edge: the new last stage, or, in a combinational implementation, what has just been
presented (70_reset_and_hazards.md R236). -/
def arriving (new : Option Response) (pipe : List (Option Response)) : Option Response :=
  (shiftPipe new pipe).getLast?.getD new

/-- One rising edge of `clk_i` with `rst_i` low, at which `new` is accepted (or, for `none`, no request is): its response will be
on the outputs LATENCY cycles after it was presented (70_reset_and_hazards.md R236). At LATENCY = 0 the outputs settle to it. -/
def State.clock (new : Option Response) (s : State) : State :=
  { s.deliver (arriving new s.pipe) with pipe := shiftPipe new s.pipe }

/-- One rising edge of `clk_i` with `rst_i` high: every valid bit is cleared, the requests in flight are discarded, none is
accepted (70_reset_and_hazards.md R232). -/
def State.resetEdge (s : State) : State :=
  { s.deliver none with pipe := List.replicate s.pipe.length none }

/-- The requests in flight that have no response yet, the oldest first: every stage but the last, whose request is on the
outputs. -/
def State.inFlight (s : State) : List Response := (s.pipe.dropLast.filterMap id).reverse

/-- An internal sub-function applied directly has ended: its result is put out, or it raises a fault and puts out none
(00_scope.md R11, 60_exceptions.md R203). -/
def State.finishSub (s : State) : Except Fault SubResult → Host.Outcome State Fault Refusal
  | .ok r => .next { s with sub := r }
  | .error f => .next { s.recordFault f with sub := .raised f }

/-- As `finishSub`, for a result that holds free values: the counter moves on (log entry 10, DESIGN CHOICE). -/
def State.finishSubFree (s : State) (r : SubResult) : Host.Outcome State Fault Refusal :=
  .next { s with sub := r, draws := s.draws + 1 }

end Sys2Proof.Machine
end

