-- ==== Sys2Proof/Machine/Operands.lean ====
section
/-! DEFINITION. The operand forms: the format descriptor (spec/30_encoding.md R63, R64, R73), a bit range
of a word (spec/40_bitfield.md R104), and the request word of the ports (R66). -/

namespace Sys2Proof.Machine

/-- `fracBits = totBits − expBits − 1` (30_encoding.md R63). -/
def fracBitsOf (totBits expBits : Nat) : Nat := totBits - expBits - 1

/-- `biasX = 2^(expBits−1) − 1` (30_encoding.md R63). -/
def biasOf (expBits : Nat) : Nat := 2 ^ (expBits - 1) - 1

/-- The largest exponent field value, `2^expBits − 1` (30_encoding.md R63). -/
def maxExpOf (expBits : Nat) : Nat := 2 ^ expBits - 1

/-- A descriptor is legal exactly when `3 ≤ totBits ≤ 64` and `1 ≤ expBits ≤ totBits − 2` (30_encoding.md R64). -/
abbrev DescriptorLegal (totBits expBits : Nat) : Prop :=
  (TOT_MIN ≤ totBits ∧ totBits ≤ TOT_MAX) ∧ (EXP_MIN ≤ expBits ∧ expBits ≤ EXP_MAX totBits)

/-- The precondition of ENCODE, its totBits half first (43_encode.md R171). -/
def checkDescriptor (totBits expBits : Byte) : Except Fault Unit :=
  if ¬ (TOT_MIN ≤ totBits.toNat ∧ totBits.toNat ≤ TOT_MAX) then
    .error (.preconditionViolation .totBits totBits expBits)
  else if ¬ (EXP_MIN ≤ expBits.toNat ∧ expBits.toNat ≤ EXP_MAX totBits.toNat) then
    .error (.preconditionViolation .expBits totBits expBits)
  else .ok ()

/-- The operands REBIAS takes are those of a legal descriptor (41_exponent_rebias.md R120): some totBits makes
`(totBits, expBits)` legal with these fracBits and biasX. -/
abbrev RebiasOperandsLegal (expBits fracBits biasX : Nat) : Prop :=
  DescriptorLegal (expBits + fracBits + 1) expBits ∧ biasX = biasOf expBits

/-- The fracBits ADAPT takes (42_fraction_adapter.md R150). -/
abbrev AdaptOperandsLegal (fracBits : Nat) : Prop := 1 ≤ fracBits ∧ fracBits ≤ 62

/-- `BITRANGE_VIOLATION` (40_bitfield.md R104): how many bits from `pos` upward the operation acts on. In range that is `width`;
out of range it is a fault, or the positions below 64 only. -/
def rangeWidth (mode : BitRange) (pos width : Nat) : Except Fault Nat :=
  if pos + width ≤ CAP then .ok width
  else match mode with
    | .fault => .error (.invalidBitRange pos width)
    | .masked => .ok (CAP - pos)

/-- The request word on the input ports (30_encoding.md R66). -/
def Inputs.req (i : Inputs) : ReqWord := i.exp_bits_i ++ i.tot_bits_i ++ i.val_i

end Sys2Proof.Machine
end

