-- ==== Sys2Proof/Machine/Adapt.lean ====
section
/-! DEFINITION. The fraction width adapter, stage 2 of ENCODE (spec/42_fraction_adapter.md R150 to R157). -/

namespace Sys2Proof.Machine

/-- ADAPT (42_fraction_adapter.md R150): the NaN fraction set in target width (R153), truncation (R151), extension (R152). -/
def adapt (fw : BitVec 52) (fracBits : Nat) (isNan : Bool) : BitVec 62 :=
  if isNan then BitVec.ofNat 62 (2 ^ fracBits - 1)
  else if fracBits < D_FRAC_BITS then BitVec.ofNat 62 (fw.toNat >>> (D_FRAC_BITS - fracBits))
  else BitVec.ofNat 62 (fw.toNat <<< (fracBits - D_FRAC_BITS))

/-- ADAPT applied directly. For a fracBits outside 1 to 62 the spec states no result, and it is a free value (log entry 11, DESIGN CHOICE). -/
def execAdapt (fw : BitVec 52) (fracBits : Nat) (isNan : Bool) (s : State) : Host.Outcome State Fault Refusal :=
  if AdaptOperandsLegal fracBits then
    s.finishSub (.ok (.frac (adapt fw fracBits isNan)))
  else
    s.finishSubFree (.frac (Config.freeFracOut s.draws))

end Sys2Proof.Machine
end

