-- ==== Sys2Proof/Machine/BitField.lean ====
section
/-! DEFINITION. The bit-field accessor, by its contract (spec/40_bitfield.md R100 to R105). `mode` is P_BITRANGE. -/

namespace Sys2Proof.Machine

/-- `(word >> pos) mod 2^width`: the bits `pos + width − 1` down to `pos`, right-aligned (40_bitfield.md R101). Positions at or
above 64 read 0 (R104). -/
def readBits (pos width : Nat) (word : Word) : Word :=
  BitVec.ofNat 64 ((word.toNat >>> pos) % 2 ^ width)

/-- `word − old × 2^pos + new × 2^pos`: the field becomes the low `width` bits of `value` (40_bitfield.md R103). The remainder
of a negative value is the low bits of its two's-complement form (00_scope.md R9). -/
def writeBits (pos width : Nat) (value : Int) (word : Word) : Word :=
  BitVec.ofNat 64
    (word.toNat - (word.toNat >>> pos) % 2 ^ width * 2 ^ pos + (value % 2 ^ width).toNat * 2 ^ pos)

/-- GETBIT (40_bitfield.md R100). -/
def getBit (mode : BitRange) (pos : Nat) (word : Word) : Except Fault (BitVec 1) :=
  (rangeWidth mode pos 1).map fun w => (readBits pos w word).setWidth 1

/-- GETBITFLD (40_bitfield.md R101). -/
def getBitFld (mode : BitRange) (pos width : Nat) (word : Word) : Except Fault Word :=
  (rangeWidth mode pos width).map fun w => readBits pos w word

/-- SETBIT (40_bitfield.md R102). -/
def setBit (mode : BitRange) (pos : Nat) (value : BitVec 1) (word : Word) : Except Fault Word :=
  (rangeWidth mode pos 1).map fun w => writeBits pos w value.toNat word

/-- SETBITFLD (40_bitfield.md R103). -/
def setBitFld (mode : BitRange) (pos width : Nat) (value : Int) (word : Word) : Except Fault Word :=
  (rangeWidth mode pos width).map fun w => writeBits pos w value word

/-- GETBIT applied directly (40_bitfield.md R100, R104). -/
def execGetbit (pos : Nat) (word : Word) (s : State) : Host.Outcome State Fault Refusal :=
  s.finishSub ((getBit s.params.bitRange pos word).map .bit)

/-- GETBITFLD applied directly (40_bitfield.md R101, R104). -/
def execGetbitfld (pos width : Nat) (word : Word) (s : State) : Host.Outcome State Fault Refusal :=
  s.finishSub ((getBitFld s.params.bitRange pos width word).map .field)

/-- SETBIT applied directly (40_bitfield.md R102, R104). -/
def execSetbit (pos : Nat) (value : BitVec 1) (word : Word) (s : State) : Host.Outcome State Fault Refusal :=
  s.finishSub ((setBit s.params.bitRange pos value word).map .word)

/-- SETBITFLD applied directly (40_bitfield.md R103, R104). -/
def execSetbitfld (pos width : Nat) (value : Int) (word : Word) (s : State) : Host.Outcome State Fault Refusal :=
  s.finishSub ((setBitFld s.params.bitRange pos width value word).map .word)

end Sys2Proof.Machine
end

