-- ==== Sys2Proof/Machine/Rebias.lean ====
section
/-! DEFINITION. The exponent rebiasing engine, stage 1 of ENCODE (spec/41_exponent_rebias.md R120 to R135). Its literals
are the spec's as written (log entry 13, UNVERIFIED). -/

namespace Sys2Proof.Machine

/-- What REBIAS gives (41_exponent_rebias.md R120): the target exponent, the working fraction in the 52-bit domain, and whether
ADAPT is to use the NaN fraction. -/
structure Rebiased where
  newExp : Int
  fw     : BitVec 52
  isNan  : Bool
  deriving DecidableEq, Repr

/-- The cases of 41_exponent_rebias.md R121. -/
inductive ValueClass where
  | c1a | c1b | c2a | c2b | c3a | c3b | c3c | c3d
  deriving DecidableEq, Repr

/-- `ne0 = e − 1023 + biasX`, an exact integer (41_exponent_rebias.md R126). -/
def rebiasedExp (e : BitVec 11) (biasX : Nat) : Int := (e.toNat : Int) - (D_BIAS : Int) + (biasX : Int)

/-- Which case decides, tested in the order of 41_exponent_rebias.md R121. -/
def classify (e : BitVec 11) (f : BitVec 52) (expBits fracBits biasX : Nat) : ValueClass :=
  if e.toNat = 0 then
    if f = 0 then .c1a else .c1b
  else if e.toNat = D_EXP_MAX then
    if f = 0 then .c2a else .c2b
  else if (2 : Int) ^ expBits ≤ rebiasedExp e biasX then .c3a
  else if rebiasedExp e biasX ≤ 0 then
    if rebiasedExp e biasX < -(fracBits : Int) then .c3b else .c3c
  else .c3d

/-- `(f + 2^52) >> (1 − ne0)`: the 53-bit significand moved down to the target's subnormal place (41_exponent_rebias.md R129). -/
def subnormalShift (f : BitVec 52) (ne0 : Int) : BitVec 52 :=
  BitVec.ofNat 52 ((f.toNat + 2 ^ D_FRAC_BITS) >>> (1 - ne0).toNat)

/-- REBIAS (41_exponent_rebias.md R120), one line a case: R122, R123, R124, R125, R127, R128, R129, R130. -/
def rebias (e : BitVec 11) (f : BitVec 52) (expBits fracBits biasX : Nat) : Rebiased :=
  match classify e f expBits fracBits biasX with
  | .c1a => { newExp := 0, fw := 0, isNan := false }
  | .c1b => { newExp := 1 - (D_BIAS : Int) + (biasX : Int), fw := f, isNan := false }
  | .c2a => { newExp := (maxExpOf expBits : Int), fw := 0, isNan := false }
  | .c2b => { newExp := (maxExpOf expBits : Int), fw := 0, isNan := true }
  | .c3a => { newExp := (maxExpOf expBits : Int), fw := 0, isNan := false }
  | .c3b => { newExp := 0, fw := 0, isNan := false }
  | .c3c => { newExp := 0, fw := subnormalShift f (rebiasedExp e biasX), isNan := false }
  | .c3d => { newExp := rebiasedExp e biasX, fw := f, isNan := false }

/-- REBIAS applied directly. On operands of no legal descriptor the spec states no result, and the three are free values (log
entry 11, DESIGN CHOICE). -/
def execRebias (e : BitVec 11) (f : BitVec 52) (expBits fracBits biasX : Nat) (s : State) :
    Host.Outcome State Fault Refusal :=
  if RebiasOperandsLegal expBits fracBits biasX then
    let r := rebias e f expBits fracBits biasX
    s.finishSub (.ok (.rebias r.newExp r.fw r.isNan))
  else
    s.finishSubFree (.rebias (Config.freeNewExp s.draws) (Config.freeFw s.draws) (Config.freeIsNan s.draws))

end Sys2Proof.Machine
end

