-- ==== Sys2Proof/Machine/Encode.lean ====
section
/-! DEFINITION. ENCODE, the composition of the parts (spec/43_encode.md R170 to R180). -/

namespace Sys2Proof.Machine

/-- The values the datapath holds while it serves one request (10_state.md R27). None survives the request, so they are no
field of `State` (log entry 8, DEDUCED). -/
structure Datapath where
  s        : BitVec 1
  e        : BitVec 11
  f        : BitVec 52
  fracBits : Nat
  biasX    : Nat
  /-- For a normal input only. -/
  ne0      : Option Int
  newExp   : Int
  fw       : BitVec 52
  isNan    : Bool
  fracOut  : BitVec 62
  expField : Nat
  acc      : Word
  deriving DecidableEq, Repr

/-- The exponent fits the field: `0 ≤ new_exp ≤ 2^expBits − 1` (43_encode.md R175). -/
abbrev ExpFits (newExp : Int) (expBits : Nat) : Prop := 0 ≤ newExp ∧ newExp ≤ 2 ^ expBits - 1

/-- `PACK_EXP(new_exp, expBits)` under P_SUBNORM_EXP_PACK = `masked` (43_encode.md R175): the low expBits bits, which are
`new_exp` itself where it fits. -/
def packExp (newExp : Int) (expBits : Nat) : Nat :=
  if ExpFits newExp expBits then newExp.toNat else (newExp % 2 ^ expBits).toNat

/-- The pseudocode of 43_encode.md R170, in its order: precondition (R171), extraction (R172), the two stages (R173), packing into
a zeroed accumulator (R174). -/
def encodeDatapath (mode : BitRange) (val : Word) (totBits expBits : Byte) : Except Fault Datapath := do
  checkDescriptor totBits expBits
  let fracBits := fracBitsOf totBits.toNat expBits.toNat
  let biasX := biasOf expBits.toNat
  let s ← getBit mode 63 val
  let e := (← getBitFld mode 52 11 val).setWidth 11
  let f := (← getBitFld mode 0 52 val).setWidth 52
  let stage1 := rebias e f expBits.toNat fracBits biasX
  let fracOut := adapt stage1.fw fracBits stage1.isNan
  let expField := packExp stage1.newExp expBits.toNat
  let acc ← setBit mode (totBits.toNat - 1) s 0
  let acc ← setBitFld mode fracBits expBits.toNat expField acc
  let acc ← setBitFld mode 0 fracBits fracOut.toNat acc
  return {
    s := s
    e := e
    f := f
    fracBits := fracBits
    biasX := biasX
    ne0 := if e.toNat = 0 ∨ e.toNat = D_EXP_MAX then none else some (rebiasedExp e biasX)
    newExp := stage1.newExp
    fw := stage1.fw
    isNan := stage1.isNan
    fracOut := fracOut
    expField := expField
    acc := acc }

/-- The response to a request: a fault of the datapath, or its accumulator; but where the exponent does not fit and
P_SUBNORM_EXP_PACK is `any`, the whole result is the unconstrained `draw` (43_encode.md R175). -/
def respond (params : Params) (draw : Word) (val : Word) (totBits expBits : Byte) : Response :=
  match encodeDatapath params.bitRange val totBits expBits with
  | .error f => .fault f
  | .ok d =>
    if ExpFits d.newExp expBits.toNat then .result d.acc
    else match params.subnormExpPack with
      | .masked => .result d.acc
      | .any => .result draw

/-- ENCODE (43_encode.md R170): the request is accepted, and its response is delivered LATENCY cycles later (20_memory.md R47,
70_reset_and_hazards.md R236); in a combinational implementation that is at once. A fault is in the response, in a next state
(60_exceptions.md R201, R206). -/
def execEncode (val : Word) (totBits expBits : Byte) (s : State) : Host.Outcome State Fault Refusal :=
  .next (s.clock (some (respond s.params (Config.freeResult s.draws) val totBits expBits)))

end Sys2Proof.Machine
end

