-- ==== Sys2Proof/Syntax.lean ====
section
/-! DEFINITION. The operations of the opcode table (spec/opcode_table.json, spec/30_encoding.md section 5), one constructor a
row. Only ENCODE is selected by a request word; the other six are the internal sub-functions it is built from (R68, R71). -/

namespace Sys2Proof

inductive Instr where
  /-- ENCODE val, totBits, expBits (43_encode.md R170). -/
  | encode (val : Word) (totBits expBits : Byte)
  /-- GETBIT(pos, word) (40_bitfield.md R100). `pos` is a natural number (R104). -/
  | getbit (pos : Nat) (word : Word)
  /-- GETBITFLD(pos, width, word) (40_bitfield.md R101). -/
  | getbitfld (pos width : Nat) (word : Word)
  /-- SETBIT(pos, value, word) (40_bitfield.md R102). `value` is one bit wide (R102, D17). -/
  | setbit (pos : Nat) (value : BitVec 1) (word : Word)
  /-- SETBITFLD(pos, width, value, word) (40_bitfield.md R103). `value` is an integer of any size; R103 gives a negative one its
  meaning too. -/
  | setbitfld (pos width : Nat) (value : Int) (word : Word)
  /-- REBIAS(e, f, expBits, fracBits, biasX) (41_exponent_rebias.md R120). -/
  | rebias (e : BitVec 11) (f : BitVec 52) (expBits fracBits biasX : Nat)
  /-- ADAPT(fw, fracBits, is_nan) (42_fraction_adapter.md R150). -/
  | adapt (fw : BitVec 52) (fracBits : Nat) (isNan : Bool)
  deriving DecidableEq, Repr

end Sys2Proof
end

