-- ==== Sys2Proof/Machine/Dispatch.lean ====
section
/-! DEFINITION. One arm per operation of the opcode table. -/

namespace Sys2Proof.Machine

def exec (i : Instr) (s : State) : Host.Outcome State Fault Refusal :=
  match i with
  | .encode val totBits expBits => Sys2Proof.Machine.execEncode val totBits expBits s
  | .getbit pos word => Sys2Proof.Machine.execGetbit pos word s
  | .getbitfld pos width word => Sys2Proof.Machine.execGetbitfld pos width word s
  | .setbit pos value word => Sys2Proof.Machine.execSetbit pos value word s
  | .setbitfld pos width value word => Sys2Proof.Machine.execSetbitfld pos width value word s
  | .rebias e f expBits fracBits biasX => Sys2Proof.Machine.execRebias e f expBits fracBits biasX s
  | .adapt fw fracBits isNan => Sys2Proof.Machine.execAdapt fw fracBits isNan s

end Sys2Proof.Machine
end

