-- ==== Sys2Proof/Decode.lean ====
section
/-! DEFINITION. Reading a request word and writing one (spec/30_encoding.md R66, R68, R72, R73): `REQ[79:0]` is expBits at bits
79:72, totBits at 71:64 and val at 63:0. There is no opcode field. -/

namespace Sys2Proof

/-- Why bits are no request word. -/
inductive DecodeError where
  /-- R72: a request is one 80-bit word, with no shorter, longer or prefixed form; `n` is the length found. -/
  | notOneRequestWord (n : Nat)
  deriving DecidableEq, Repr

/-- The field `expBits`, `REQ[79:72]` (R66). -/
def reqExpBits (req : ReqWord) : Byte := req.extractLsb' 72 8

/-- The field `totBits`, `REQ[71:64]` (R66). -/
def reqTotBits (req : ReqWord) : Byte := req.extractLsb' 64 8

/-- The field `val`, `REQ[63:0]` (R66). -/
def reqVal (req : ReqWord) : Word := req.extractLsb' 0 64

/-- The request word of three field values (R66). -/
def packReq (val : Word) (totBits expBits : Byte) : ReqWord := expBits ++ totBits ++ val

/-- Every 80-bit word is an ENCODE request (R68). -/
def decodeReq (req : ReqWord) : Instr := .encode (reqVal req) (reqTotBits req) (reqExpBits req)

/-- The decoder, total on bits of any length: a string of any other length than 80 is no request (R72). -/
def decode {n : Nat} (bits : BitVec n) : Except DecodeError Instr :=
  if n = 80 then .ok (decodeReq (bits.setWidth 80)) else .error (.notOneRequestWord n)

/-- The decoder on a word of the opcode table's numbering, whose bit 0 is `REQ[0]`: `nbits` bits are given, and the bits of the
request above them are 0. -/
def decodeTableWord (nbits w : Nat) : Option Instr :=
  if nbits ≤ 80 then (decode (BitVec.ofNat 80 (w % 2 ^ nbits))).toOption else none

/-- The request word of an instruction (R66); the internal sub-functions have none (R68). -/
def encode : Instr → Option ReqWord
  | .encode val totBits expBits => some (packReq val totBits expBits)
  | .getbit _ _ => none
  | .getbitfld _ _ _ => none
  | .setbit _ _ _ => none
  | .setbitfld _ _ _ _ => none
  | .rebias _ _ _ _ _ => none
  | .adapt _ _ _ => none

end Sys2Proof
end

