-- ==== Sys2Proof/Machine/Fetch.lean ====
section
/-! DEFINITION. Taking the next cycle's port values and the request they present (spec/10_state.md R25, spec/70_reset_and_hazards.md
R232, R236, R237). -/

namespace Sys2Proof.Machine

/-- What one cycle brings: an instruction to run on a state, or a state already complete because no request is accepted. -/
inductive Fetched where
  | request (i : Instr) (s : State)
  | noRequest (s : State)

/-- The host drives the given values onto the input ports. -/
def State.present (i : Inputs) (rest : List Inputs) (s : State) : State := { s with inp := i, host := rest }

/-- A cycle for which the host has nothing: a registered implementation has its edge with `in_valid_i` and `rst_i` low; a
combinational one sees its inputs held, so nothing changes (70_reset_and_hazards.md R233). -/
def State.idleCycle (s : State) : State :=
  if s.latency = 0 then s
  else ({ s with inp := { s.inp with in_valid_i := false, rst_i := false } }).clock none

/-- The cycle's request, decoded from the request word on the ports (30_encoding.md R66, R68). A combinational implementation has
neither `in_valid_i` nor `rst_i` (10_state.md R25, 70_reset_and_hazards.md R233): whatever is driven is a request (log entry 17,
DEDUCED). A registered one gives `rst_i` priority over a request (R232). -/
def State.fetch (s : State) : Fetched :=
  match s.host with
  | [] => .noRequest s.idleCycle
  | i :: rest =>
    if s.latency = 0 then .request (decodeReq i.req) (s.present i rest)
    else if i.rst_i then .noRequest (s.present i rest).resetEdge
    else if i.in_valid_i then .request (decodeReq i.req) (s.present i rest)
    else .noRequest ((s.present i rest).clock none)

/-- The port values that present a request word (30_encoding.md R66). -/
def Inputs.ofReq (req : ReqWord) : Inputs where
  val_i      := reqVal req
  tot_bits_i := reqTotBits req
  exp_bits_i := reqExpBits req
  in_valid_i := true
  rst_i      := false

/-- The host will present this request in the next cycle, before whatever it was going to present. -/
def State.presentNext (req : ReqWord) (s : State) : State := { s with host := Inputs.ofReq req :: s.host }

end Sys2Proof.Machine
end

