-- ==== Sys2Proof/Machine/Step.lean ====
section
/-! DEFINITION. One step: one rising edge of `clk_i` in a registered implementation, one presentation of inputs in a combinational
one (spec/70_reset_and_hazards.md R232, R236; log entry 3, DESIGN CHOICE). -/

namespace Sys2Proof.Machine

def step (s : State) : Host.Outcome State Fault Refusal :=
  match s.fetch with
  | .request i s' => exec i s'
  | .noRequest s' => .next s'

/-- The request word `w` is what the host presents next: it stands for the host presenting it (log entry 1, DESIGN CHOICE). The word has
`nbits` bits and the rest of the 80 are 0. -/
def State.withFetchWord (s : State) (nbits w : Nat) : State :=
  s.presentNext (BitVec.ofNat 80 (w % 2 ^ nbits))

end Sys2Proof.Machine
end

