-- ==== Sys2Proof/Machine/Assembler.lean ====
section
/-! DEFINITION. The request lines of spec/30_encoding.md R74 (decision D14): a line assembles to at most one request word. The
block has no assembler; this writes requests down. Blanks between tokens (where they may and must stand), the letter case of
hex digits, leading zeros, the spelling of a decimal and the overflow of f64 are log entry 14, PRESUMED. -/

namespace Sys2Proof.Machine

/-- Why a line does not assemble. -/
inductive AsmError where
  /-- The line is not `ENCODE val, totBits, expBits`. -/
  | notARequest
  /-- The value is neither `0x` with 16 hex digits nor `f64(decimal)`. -/
  | badValue
  /-- totBits or expBits is no decimal integer. -/
  | badInteger
  /-- totBits or expBits is outside 0 to 255. -/
  | integerOutOfRange (n : Nat)
  deriving DecidableEq, Repr

def isBlank (c : Char) : Bool := c == ' ' || c == '\t'

/-- A text without the blanks at its ends. -/
def trimBlanks (cs : List Char) : List Char := ((cs.dropWhile isBlank).reverse.dropWhile isBlank).reverse

/-- The pieces between the commas of a text. -/
def splitCommas : List Char → List (List Char)
  | [] => [[]]
  | c :: cs =>
    match splitCommas cs with
    | [] => [[]]
    | piece :: pieces => if c == ',' then [] :: piece :: pieces else (c :: piece) :: pieces

def decDigit (c : Char) : Option Nat :=
  if '0'.toNat ≤ c.toNat ∧ c.toNat ≤ '9'.toNat then some (c.toNat - '0'.toNat) else none

/-- A hex digit in either letter case: R74 says `hex` only (log entry 14, PRESUMED). -/
def hexDigit (c : Char) : Option Nat :=
  if 'A'.toNat ≤ c.toNat ∧ c.toNat ≤ 'F'.toNat then some (c.toNat - 'A'.toNat + 10)
  else if 'a'.toNat ≤ c.toNat ∧ c.toNat ≤ 'f'.toNat then some (c.toNat - 'a'.toNat + 10)
  else decDigit c

/-- The number a string of digits writes, most significant first; `none` if one of them is no digit. -/
def digitsValue (base : Nat) (digit : Char → Option Nat) (cs : List Char) : Option Nat :=
  cs.foldl (fun acc c => acc.bind fun n => (digit c).map fun d => n * base + d) (some 0)

/-- A nonempty string of decimal digits; leading zeros may stand (log entry 14, PRESUMED). -/
def parseNat (cs : List Char) : Option Nat := if cs = [] then none else digitsValue 10 decDigit cs

/-- A sign that may be absent, and the rest. -/
def takeSign : List Char → Bool × List Char
  | '-' :: cs => (true, cs)
  | '+' :: cs => (false, cs)
  | cs => (false, cs)

/-- A decimal number: its sign, and its magnitude as `mantissa × 10^exponent`. -/
structure Decimal where
  negative : Bool
  mantissa : Nat
  exponent : Int
  deriving DecidableEq, Repr

/-- The exponent part of a decimal, which may be absent: `e` or `E`, a sign that may be absent, digits. -/
def parseExponent : List Char → Option Int
  | [] => some 0
  | c :: cs =>
    if c == 'e' || c == 'E' then
      (parseNat (takeSign cs).2).map fun n => if (takeSign cs).1 then -(n : Int) else (n : Int)
    else none

/-- `[sign] digits [. digits] [exponent]`, with a digit on both sides of a point (log entry 14, PRESUMED). -/
def parseDecimal (cs : List Char) : Option Decimal :=
  let (negative, cs) := takeSign cs
  let isDigit := fun c => (decDigit c).isSome
  let whole := cs.takeWhile isDigit
  let (part, tail) := match cs.dropWhile isDigit with
    | '.' :: rest => (some (rest.takeWhile isDigit), rest.dropWhile isDigit)
    | rest => (none, rest)
  if part = some [] then none
  else do
    let _ ← parseNat whole
    let mantissa ← parseNat (whole ++ part.getD [])
    let e ← parseExponent tail
    return { negative := negative, mantissa := mantissa, exponent := e - ((part.getD []).length : Int) }

/-- `num / den` rounded to an integer, ties to even. -/
def divNearestEven (num den : Nat) : Nat :=
  let q := num / den
  let r := num % den
  if den < 2 * r ∨ (2 * r = den ∧ q % 2 = 1) then q + 1 else q

/-- `floor (log2 (num / den))` for positive `num` and `den`. -/
def floorLog2Quot (num den : Nat) : Int :=
  let k : Int := (num.log2 : Int) - (den.log2 : Int)
  if den * 2 ^ k.toNat ≤ num * 2 ^ (-k).toNat then k else k - 1

/-- The pattern of the binary64 magnitude nearest to `num / den`, ties to even: the usual conversion R74 names. The ulp is
`2^q`; a significand that rounds up to `2^53` carries into the exponent; above the largest finite value it is infinity. -/
def nearestBinary64 (num den : Nat) : Nat :=
  if num = 0 then 0
  else
    let q : Int := max (floorLog2Quot num den - 52) (-1074)
    let significand := divNearestEven (num * 2 ^ (-q).toNat) (den * 2 ^ q.toNat)
    min ((q + 1074).toNat * 2 ^ 52 + significand) (2047 * 2 ^ 52)

/-- `f64(d)` (30_encoding.md R74). -/
def f64 (d : Decimal) : Word :=
  BitVec.ofNat 64 ((if d.negative then 2 ^ 63 else 0) +
    nearestBinary64 (d.mantissa * 10 ^ d.exponent.toNat) (10 ^ (-d.exponent).toNat))

/-- The `val` operand: `0x` and exactly 16 hex digits, or `f64(decimal)` (30_encoding.md R74). -/
def parseVal (cs : List Char) : Option Word :=
  match cs with
  | '0' :: 'x' :: digits =>
    if digits.length = 16 then (digitsValue 16 hexDigit digits).map (BitVec.ofNat 64) else none
  | 'f' :: '6' :: '4' :: '(' :: rest =>
    match rest.reverse with
    | ')' :: body => (parseDecimal (trimBlanks body.reverse)).map f64
    | _ => none
  | _ => none

/-- A totBits or expBits operand: 0 to 255, legal descriptor or not (30_encoding.md R74). -/
def parseByte (cs : List Char) : Except AsmError Byte :=
  match parseNat cs with
  | none => .error .badInteger
  | some n => if n ≤ 255 then .ok (BitVec.ofNat 8 n) else .error (.integerOutOfRange n)

/-- The operands of an ENCODE line. -/
def assembleOperands (cs : List Char) : Except AsmError ReqWord :=
  match (splitCommas cs).map trimBlanks with
  | [val, totBits, expBits] =>
    match parseVal val with
    | none => .error .badValue
    | some v => do
      let t ← parseByte totBits
      let e ← parseByte expBits
      return packReq v t e
  | _ => .error .notARequest

/-- One line: nothing but blanks and a comment assembles to no word, a request to its request word (30_encoding.md R74).
A blank must stand between `ENCODE` and the value, which R74's grammar does not say (log entry 14, PRESUMED). -/
def assembleLine (line : List Char) : Except AsmError (Option ReqWord) :=
  match trimBlanks (line.takeWhile fun c => !(c == ';')) with
  | [] => .ok none
  | 'E' :: 'N' :: 'C' :: 'O' :: 'D' :: 'E' :: c :: rest =>
    if isBlank c then (assembleOperands rest).map some else .error .notARequest
  | _ => .error .notARequest

end Sys2Proof.Machine
end

