-- ==== Sys2Proof/Machine/Reading.lean ====
section
/-! DEFINITION. How a floatx pattern is read (spec/30_encoding.md R62, R65). The block never decodes floatx: no meaning uses this
file; it is for stating what a result is worth, as spec/95_test_vectors.md Property 4 does. -/

namespace Sys2Proof.Machine

/-- The value of a pattern (30_encoding.md R65). Both zeros read as the number 0. -/
inductive FloatxValue where
  | finite (q : ℚ)
  | infinity (negative : Bool)
  | nan
  deriving DecidableEq, Repr

/-- The sign field, bit `totBits − 1` (30_encoding.md R62). -/
def floatxSign (totBits : Nat) (w : Word) : Bool := w.getLsbD (totBits - 1)

/-- The exponent field, bits `totBits − 2` down to `fracBits` (30_encoding.md R62). -/
def floatxExp (totBits expBits : Nat) (w : Word) : Nat :=
  (w.toNat >>> fracBitsOf totBits expBits) % 2 ^ expBits

/-- The fraction field, bits `fracBits − 1` down to 0 (30_encoding.md R62). -/
def floatxFrac (totBits expBits : Nat) (w : Word) : Nat := w.toNat % 2 ^ fracBitsOf totBits expBits

/-- The magnitude of a finite pattern (30_encoding.md R65): subnormal for exponent field 0, else with the implicit leading 1. -/
def floatxMagnitude (totBits expBits : Nat) (w : Word) : ℚ :=
  let fraction : ℚ := (floatxFrac totBits expBits w : ℚ) / 2 ^ fracBitsOf totBits expBits
  if floatxExp totBits expBits w = 0 then
    fraction * (2 : ℚ) ^ (1 - (biasOf expBits : Int))
  else
    (1 + fraction) * (2 : ℚ) ^ ((floatxExp totBits expBits w : Int) - (biasOf expBits : Int))

/-- The value of a pattern in the format of a descriptor (30_encoding.md R65). -/
def readFloatx (totBits expBits : Nat) (w : Word) : FloatxValue :=
  if floatxExp totBits expBits w = maxExpOf expBits then
    if floatxFrac totBits expBits w = 0 then .infinity (floatxSign totBits w) else .nan
  else
    .finite (if floatxSign totBits w then -floatxMagnitude totBits expBits w else floatxMagnitude totBits expBits w)

/-- The value of a binary64 pattern: binary64 is the format of descriptor (64, 11) (30_encoding.md R60, R62). -/
def readBinary64 (val : Word) : FloatxValue := readFloatx 64 11 val

end Sys2Proof.Machine
end

