-- ==== Sys2Proof/Safety.lean ====
section
/-! DEFINITION. What counts as a run that is over and a run that is successful (spec/70_reset_and_hazards.md R238,
spec/60_exceptions.md R201), and the invariant of the reachable states. -/

namespace Sys2Proof.Machine

/-- The run is over: every accepted request has its response (70_reset_and_hazards.md R238), and the host has no cycle left to
present. R238 counts requests only; that a queued cycle without one (idle, or `rst_i` high) keeps the run open is log entry 18,
DESIGN CHOICE. -/
abbrev State.RunOver (s : State) : Prop := s.host = [] ∧ s.inFlight = []

/-- The run is over and no response reported a fault (70_reset_and_hazards.md R238, 60_exceptions.md R201). -/
abbrev State.RunSuccessful (s : State) : Prop := s.RunOver ∧ s.fault = none

/-- A response the block can give: a result, or a PreconditionViolation that names an illegal descriptor and the half of it that
was tested first and failed (60_exceptions.md R200, R203, R204). -/
def Response.Lawful : Response → Prop
  | .result _ => True
  | .fault (.preconditionViolation which totBits expBits) =>
      checkDescriptor totBits expBits = .error (.preconditionViolation which totBits expBits)
  | .fault (.invalidBitRange _ _) => False

/-- `result_o` and `fault_o` carry this response; beside a fault `result_o` is unspecified (10_state.md R26). -/
def Outputs.Carries (o : Outputs) : Response → Prop
  | .result r => o.result_o = r ∧ o.fault_o = false
  | .fault _ => o.fault_o = true

/-- What holds in every state a run reaches. -/
structure State.Inv (s : State) : Prop where
  /-- A registered implementation shows its last stage (70_reset_and_hazards.md R236). -/
  registered : ∀ last, s.pipe.getLast? = some last →
    s.out.out_valid_o = last.isSome ∧ ∀ r, last = some r → s.out.Carries r
  /-- A combinational one shows the response to the values on its input ports (70_reset_and_hazards.md R233). -/
  combinational : s.latency = 0 →
    ∃ n, s.out.Carries (respond s.params (Config.freeResult n) s.inp.val_i s.inp.tot_bits_i s.inp.exp_bits_i)
  /-- The run's fault is the first one its responses report (60_exceptions.md R201). -/
  verdict : s.fault = s.responses.findSome? Response.faultOf
  /-- Every response given, and every one to come, is one the block can give (60_exceptions.md R203). -/
  lawful : (∀ r ∈ s.responses, r.Lawful) ∧ (∀ r, some r ∈ s.pipe → r.Lawful)

end Sys2Proof.Machine
end

