-- ==== Sys2Proof/WellFormed.lean ====
section
/-! DEFINITION. The operand domains of the operations (spec/30_encoding.md R71). An ENCODE has no ill-formed operands: every 80-bit
word is a request (R68), and an illegal descriptor is a request that faults (R69), not an ill-formed one. -/

namespace Sys2Proof

/-- The operands are in the domain R71 gives them. Outside it the primitives do what R104 says, and the two stages what log
entry 11, DESIGN CHOICE, says. -/
def Instr.wellFormed : Instr → Bool
  | .encode _ _ _ => true
  | .getbit pos _ => pos ≤ 63
  | .getbitfld pos width _ => pos + width ≤ 64
  | .setbit pos _ _ => pos ≤ 63
  | .setbitfld pos width value _ => pos + width ≤ 64 && 0 ≤ value
  | .rebias _ _ expBits fracBits biasX =>
      1 ≤ expBits && 1 ≤ fracBits && expBits + fracBits ≤ 63 && biasX == 2 ^ (expBits - 1) - 1
  | .adapt _ fracBits _ => 1 ≤ fracBits && fracBits ≤ 62

/-- `Instr.wellFormed` as a proposition. -/
abbrev Instr.WellFormed (i : Instr) : Prop := i.wellFormed = true

end Sys2Proof
end

