-- ==== Sys2Proof/Certificates/Slice0/Obligations.lean ====
section
/-! DEFINITION. The statements for the provers, from the numbered rules of spec/. First the quantities they speak of, written in
plain arithmetic on the numbers of the rules, apart from the model's own definitions of them. -/

namespace Sys2Proof.Spec

open Sys2Proof.Machine

/-- The sign of a binary64 pattern, `val[63]` (30_encoding.md R60). -/
def sign (val : Word) : Nat := val.toNat / 2 ^ 63

/-- The biased exponent of a binary64 pattern, `val[62:52]` (R60). -/
def exponent (val : Word) : Nat := val.toNat / 2 ^ 52 % 2 ^ 11

/-- The fraction of a binary64 pattern, `val[51:0]` (R60). -/
def fraction (val : Word) : Nat := val.toNat % 2 ^ 52

/-- A normal binary64 pattern (30_encoding.md R61). -/
abbrev Normal (val : Word) : Prop := 1 ≤ exponent val ∧ exponent val ≤ 2046

/-- A binary64 subnormal (30_encoding.md R61). -/
abbrev Subnormal (val : Word) : Prop := exponent val = 0 ∧ fraction val ≠ 0

/-- `ne0 = e − 1023 + biasX` with `biasX = 2^(expBits−1) − 1` (41_exponent_rebias.md R126, 30_encoding.md R63). -/
def ne0 (expBits : Nat) (e : Nat) : Int := (e : Int) - 1023 + (2 ^ (expBits - 1) - 1)

/-- `totBits − expBits − 1` of the two descriptor bytes (30_encoding.md R63). -/
def fracBits (totBits expBits : Byte) : Nat := totBits.toNat - expBits.toNat - 1

/-- ADAPT of a working fraction that is no NaN's (42_fraction_adapter.md R151, R152). -/
def adapted (fracBits fw : Nat) : Nat :=
  if fracBits < 52 then fw / 2 ^ (52 - fracBits) else fw * 2 ^ (fracBits - 52)

/-- The exponent field of a result, by the table of 43_encode.md R179 under P_SUBNORM_EXP_PACK = `masked` (R175). Case 1b is
`biasX − 1022`, which is `2^(expBits−1) − 1023` (log entry 15, DEDUCED). -/
def exponentField (fracBits expBits e f : Nat) : Nat :=
  if e = 0 then
    if f = 0 then 0 else (((2 : Int) ^ (expBits - 1) - 1023) % 2 ^ expBits).toNat
  else if e = 2047 then 2 ^ expBits - 1
  else if (2 : Int) ^ expBits ≤ ne0 expBits e then 2 ^ expBits - 1
  else if ne0 expBits e < -(fracBits : Int) then 0
  else if ne0 expBits e ≤ 0 then 0
  else (ne0 expBits e).toNat

/-- The fraction field of a result, by the table of 43_encode.md R179. -/
def fractionField (fracBits expBits e f : Nat) : Nat :=
  if e = 0 then adapted fracBits f
  else if e = 2047 then
    if f = 0 then 0 else 2 ^ fracBits - 1
  else if (2 : Int) ^ expBits ≤ ne0 expBits e then 0
  else if ne0 expBits e < -(fracBits : Int) then 0
  else if ne0 expBits e ≤ 0 then adapted fracBits ((f + 2 ^ 52) / 2 ^ (1 - ne0 expBits e).toNat)
  else adapted fracBits f

/-- The result of ENCODE, `s × 2^(totBits−1) + exp_field × 2^fracBits + frac_out` (43_encode.md R174, R179). -/
def encoded (val : Word) (totBits expBits : Byte) : Nat :=
  sign val * 2 ^ (totBits.toNat - 1)
    + exponentField (fracBits totBits expBits) expBits.toNat (exponent val) (fraction val) * 2 ^ fracBits totBits expBits
    + fractionField (fracBits totBits expBits) expBits.toNat (exponent val) (fraction val)

/-- ENCODE answers at `s` a next state in which the request has been accepted with this response. -/
abbrev Answers (val : Word) (totBits expBits : Byte) (s : State) (rsp : Response) : Prop :=
  exec (.encode val totBits expBits) s = .next (s.clock (some rsp))

/-- ENCODE answers with a result of this numeric value. -/
abbrev Gives (val : Word) (totBits expBits : Byte) (s : State) (n : Nat) : Prop :=
  ∃ r : Word, Answers val totBits expBits s (.result r) ∧ r.toNat = n

/-- The instruction raises InvalidBitRange with this info, and gives no result (40_bitfield.md R104, 60_exceptions.md R203). That
the run's record keeps an earlier fault is for SubFunctionFrame and RecordedFaultIsNeverCleared to say. -/
abbrev RaisesBitRange (i : Instr) (pos width : Nat) (s : State) : Prop :=
  ∃ t, exec i s = .next t ∧ t.sub = .raised (.invalidBitRange pos width) ∧
    (s.fault = none → t.fault = some (.invalidBitRange pos width)) ∧ (Fault.invalidBitRange pos width).code = 2

/-- The response to the request the host presents next, if the next cycle accepts one (70_reset_and_hazards.md R232, R236). -/
def acceptedNext (s : State) : List Response :=
  match s.host with
  | [] => []
  | i :: _ =>
    if s.pipe = [] ∨ (i.rst_i = false ∧ i.in_valid_i = true) then
      [respond s.params (Config.freeResult s.draws) i.val_i i.tot_bits_i i.exp_bits_i]
    else []

/-- The next cycle is one in which reset is high (it can be, in a registered implementation only). -/
def resetNext (s : State) : Bool :=
  match s.host with
  | [] => false
  | i :: _ => !s.pipe.isEmpty && i.rst_i

end Sys2Proof.Spec

open Sys2Proof Sys2Proof.Machine Sys2Proof.Spec

/-! ## Request words and decoding (30_encoding.md) -/

/-- Decoding the word of an instruction gives that instruction back, and encoding what a word decodes to gives the word back, for
every word of 80 bits; a string of another length is refused by name (30_encoding.md R66, R68, R72). -/
def Obligations.DecodeAndEncodeAgree : Prop :=
  (∀ (i : Instr) (w : ReqWord), encode i = some w → decode w = .ok i) ∧
  (∀ w : ReqWord, ∃ i, decode w = .ok i ∧ encode i = some w) ∧
  (∀ (n : Nat) (bits : BitVec n), n ≠ 80 → decode bits = .error (.notOneRequestWord n))

/-- 30_encoding.md R66: the request word of the ports, field by field and as one number, and its example. -/
def Obligations.RequestWordPacksThePorts : Prop :=
  (∀ i : Inputs,
    reqExpBits i.req = i.exp_bits_i ∧ reqTotBits i.req = i.tot_bits_i ∧ reqVal i.req = i.val_i ∧
    i.req.toNat = i.exp_bits_i.toNat * 2 ^ 72 + i.tot_bits_i.toNat * 2 ^ 64 + i.val_i.toNat ∧
    encode (.encode i.val_i i.tot_bits_i i.exp_bits_i) = some i.req) ∧
  encode (.encode 0x4000000000000000 32 8) = some 0x08204000000000000000

/-- Words L1.15, L1.16 and L1.22 of 95_test_vectors.md, the last with an illegal descriptor, and one word written out from
30_encoding.md R66 (the third) decode to the requests they stand for. -/
def Obligations.WrittenOutWordsDecode : Prop :=
  decode (0x08203FF4000000000000 : ReqWord) = .ok (.encode 0x3FF4000000000000 32 8) ∧
  decode (0x04084202A05F20000000 : ReqWord) = .ok (.encode 0x4202A05F20000000 8 4) ∧
  decode (0x3E408000000000000001 : ReqWord) = .ok (.encode 0x8000000000000001 64 62) ∧
  decode (0x07083FF0000000000000 : ReqWord) = .ok (.encode 0x3FF0000000000000 8 7)

/-- No request word selects an internal sub-function, so none has one (30_encoding.md R68, R71). -/
def Obligations.OnlyEncodeIsSelectable : Prop :=
  ∀ i : Instr, (encode i).isSome = true ↔ ∃ val totBits expBits, i = .encode val totBits expBits

/-- Of the 65536 descriptor bytes exactly 1953 are legal (30_encoding.md R64, R69). -/
def Obligations.LegalDescriptorsAre1953 : Prop :=
  (((List.range 65536).filter fun n => decide (DescriptorLegal (n % 256) (n / 256))).length) = 1953

/-- Lines of 95_test_vectors.md assemble to the words it gives them, a legal descriptor or not, and a totBits above 255 does not
assemble (30_encoding.md R74, log entry 14, PRESUMED). -/
def Obligations.RequestLinesAssemble : Prop :=
  assembleLine "ENCODE 0x3FF4000000000000, 32, 8".toList = .ok (some 0x08203FF4000000000000) ∧
  assembleLine "ENCODE f64(1.0e10), 8, 4   ; overflow".toList = .ok (some 0x04084202A05F20000000) ∧
  assembleLine "ENCODE f64(1.0e-300), 8, 4".toList = .ok (some 0x040801A56E1FC2F8F359) ∧
  assembleLine "ENCODE 0x3FF0000000000000, 8, 7".toList = .ok (some 0x07083FF0000000000000) ∧
  assembleLine "ENCODE 0x3FF0000000000000, 256, 7".toList = .error (.integerOutOfRange 256) ∧
  assembleLine "; a comment".toList = .ok none

/-! ## The bit-field accessor (40_bitfield.md) -/

/-- 40_bitfield.md R100: GETBIT gives bit `pos`; at 64 and above it faults or (P_BITRANGE = `masked`) gives 0. -/
def Obligations.GetbitReturnsTheBit : Prop :=
  (∀ (pos : Nat) (word : Word) (s : State),
    (pos ≤ 63 → exec (.getbit pos word) s = .next { s with sub := .bit (BitVec.ofBool (word.getLsbD pos)) }) ∧
    (64 ≤ pos → s.params.bitRange = .fault → RaisesBitRange (.getbit pos word) pos 1 s) ∧
    (64 ≤ pos → s.params.bitRange = .masked → exec (.getbit pos word) s = .next { s with sub := .bit 0 })) ∧
  (∀ s : State,
    exec (.getbit 63 0x8000000000000000) s = .next { s with sub := .bit 1 } ∧
    exec (.getbit 62 0x8000000000000000) s = .next { s with sub := .bit 0 })

/-- 40_bitfield.md R101: GETBITFLD gives the field right-aligned; a width of 0 gives 0, and a field of all 64 bits the word. Out of
range it faults or (P_BITRANGE = `masked`) reads 0 at every position from 64 up. -/
def Obligations.GetbitfldReturnsTheField : Prop :=
  (∀ (pos width : Nat) (word : Word) (s : State),
    (pos + width ≤ 64 ∨ s.params.bitRange = .masked →
      ∃ v : Word, exec (.getbitfld pos width word) s = .next { s with sub := .field v } ∧
        v.toNat < 2 ^ width ∧ ∀ j, v.getLsbD j = (decide (j < width) && word.getLsbD (pos + j))) ∧
    (64 < pos + width → s.params.bitRange = .fault →
      RaisesBitRange (.getbitfld pos width word) pos width s)) ∧
  (∀ (pos : Nat) (word : Word) (s : State),
    (pos ≤ 64 → exec (.getbitfld pos 0 word) s = .next { s with sub := .field 0 }) ∧
    exec (.getbitfld 0 64 word) s = .next { s with sub := .field word }) ∧
  (∀ s : State,
    exec (.getbitfld 52 11 0x4000000000000000) s = .next { s with sub := .field 0x400 } ∧
    exec (.getbitfld 0 52 0x3FF4000000000000) s = .next { s with sub := .field 0x4000000000000 })

/-- 40_bitfield.md R102: SETBIT writes the bit and leaves every other as it was; out of range it faults or (P_BITRANGE =
`masked`) writes nothing. -/
def Obligations.SetbitWritesOneBit : Prop :=
  (∀ (pos : Nat) (value : BitVec 1) (word : Word) (s : State),
    (pos ≤ 63 ∨ s.params.bitRange = .masked →
      ∃ w : Word, exec (.setbit pos value word) s = .next { s with sub := .word w } ∧
        ∀ j, j < 64 → w.getLsbD j = if j = pos then value.getLsbD 0 else word.getLsbD j) ∧
    (64 ≤ pos → s.params.bitRange = .fault →
      RaisesBitRange (.setbit pos value word) pos 1 s)) ∧
  (∀ s : State,
    exec (.setbit 7 1 0) s = .next { s with sub := .word 0x80 } ∧
    exec (.setbit 63 0 0xFFFFFFFFFFFFFFFF) s = .next { s with sub := .word 0x7FFFFFFFFFFFFFFF })

/-- 40_bitfield.md R103: SETBITFLD writes the low `width` bits of an integer `value` (two's complement for a negative one) and
changes no bit outside the field, also where the value does not fit; out of range it faults or (P_BITRANGE = `masked`) drops
the positions from 64 up. -/
def Obligations.SetbitfldWritesOnlyItsField : Prop :=
  (∀ (pos width : Nat) (value : Int) (word : Word) (s : State),
    (pos + width ≤ 64 ∨ s.params.bitRange = .masked →
      ∃ w : Word, exec (.setbitfld pos width value word) s = .next { s with sub := .word w } ∧
        ∀ j, j < 64 → w.getLsbD j =
          if pos ≤ j ∧ j < pos + width then decide (value / 2 ^ (j - pos) % 2 = 1) else word.getLsbD j) ∧
    (64 < pos + width → s.params.bitRange = .fault →
      RaisesBitRange (.setbitfld pos width value word) pos width s)) ∧
  (∀ (pos : Nat) (value : Int) (word : Word) (s : State),
    (pos ≤ 64 → exec (.setbitfld pos 0 value word) s = .next { s with sub := .word word }) ∧
    exec (.setbitfld 0 64 value word) s = .next { s with sub := .word (BitVec.ofInt 64 value) }) ∧
  (∀ s : State,
    exec (.setbitfld 3 4 0xF 0x80) s = .next { s with sub := .word 0xF8 } ∧
    exec (.setbitfld 3 4 0x1F 0) s = .next { s with sub := .word 0x78 })

/-! ## The exponent rebiasing engine (41_exponent_rebias.md) -/

/-- 41_exponent_rebias.md R122, case 1a: zero gives (0, 0, 0), and ENCODE keeps its sign, so the two zeros stay distinct. -/
def Obligations.ZeroGivesSignedZero : Prop :=
  (∀ (expBits fracBits biasX : Nat) (s : State), RebiasOperandsLegal expBits fracBits biasX →
    exec (.rebias 0 0 expBits fracBits biasX) s = .next { s with sub := .rebias 0 0 false }) ∧
  (∀ (totBits expBits : Byte) (s : State), DescriptorLegal totBits.toNat expBits.toNat →
    Gives 0 totBits expBits s 0 ∧ Gives 0x8000000000000000 totBits expBits s (2 ^ (totBits.toNat - 1))) ∧
  (∀ s : State, Answers 0x8000000000000000 8 4 s (.result 0x80))

/-- 41_exponent_rebias.md R123, case 1b: a binary64 subnormal gives `1 − 1023 + biasX` and its fraction, with no clamp; that is 1
only for expBits = 11. -/
def Obligations.SubnormalInputIsNotClamped : Prop :=
  (∀ (f : BitVec 52) (expBits fracBits biasX : Nat) (s : State), RebiasOperandsLegal expBits fracBits biasX → f ≠ 0 →
    exec (.rebias 0 f expBits fracBits biasX) s
      = .next { s with sub := .rebias (1 - 1023 + (biasX : Int)) f false }) ∧
  (∀ expBits, 1 ≤ expBits → (1 - 1023 + ((2 ^ (expBits - 1) - 1 : Nat) : Int) = 1 ↔ expBits = 11)) ∧
  (∀ s : State,
    exec (.rebias 0 1 11 52 1023) s = .next { s with sub := .rebias 1 1 false } ∧
    exec (.rebias 0 1 4 3 7) s = .next { s with sub := .rebias (-1015) 1 false })

/-- 41_exponent_rebias.md R124, case 2a: infinity gives the all-ones exponent and fraction 0. -/
def Obligations.InfinityGivesInfinity : Prop :=
  (∀ (expBits fracBits biasX : Nat) (s : State), RebiasOperandsLegal expBits fracBits biasX →
    exec (.rebias 2047 0 expBits fracBits biasX) s
      = .next { s with sub := .rebias ((2 : Int) ^ expBits - 1) 0 false }) ∧
  (∀ (totBits expBits : Byte) (s : State), DescriptorLegal totBits.toNat expBits.toNat →
    Gives 0x7FF0000000000000 totBits expBits s ((2 ^ expBits.toNat - 1) * 2 ^ fracBits totBits expBits) ∧
    Gives 0xFFF0000000000000 totBits expBits s
      (2 ^ (totBits.toNat - 1) + (2 ^ expBits.toNat - 1) * 2 ^ fracBits totBits expBits)) ∧
  (∀ s : State, Answers 0xFFF0000000000000 8 4 s (.result 0xF8))

/-- 41_exponent_rebias.md R125, case 2b: every NaN gives the all-ones exponent with the NaN flag, and its result is the canonical
NaN of its sign: the payload is discarded. -/
def Obligations.NanIsCanonical : Prop :=
  (∀ (f : BitVec 52) (expBits fracBits biasX : Nat) (s : State), RebiasOperandsLegal expBits fracBits biasX → f ≠ 0 →
    exec (.rebias 2047 f expBits fracBits biasX) s
      = .next { s with sub := .rebias ((2 : Int) ^ expBits - 1) 0 true }) ∧
  (∀ (val : Word) (totBits expBits : Byte) (s : State), DescriptorLegal totBits.toNat expBits.toNat →
    exponent val = 2047 → fraction val ≠ 0 →
    Gives val totBits expBits s (sign val * 2 ^ (totBits.toNat - 1)
      + (2 ^ expBits.toNat - 1) * 2 ^ fracBits totBits expBits + (2 ^ fracBits totBits expBits - 1))) ∧
  (∀ s : State, Answers 0x7FF8000000000000 8 4 s (.result 0x7F))

/-- 41_exponent_rebias.md R127, case 3a: `ne0 ≥ 2^expBits` gives the all-ones exponent and fraction 0, the infinity pattern of its
sign. -/
def Obligations.OverflowSaturatesToInfinity : Prop :=
  (∀ (e : BitVec 11) (f : BitVec 52) (expBits fracBits biasX : Nat) (s : State),
    RebiasOperandsLegal expBits fracBits biasX → 1 ≤ e.toNat → e.toNat ≤ 2046 →
    (2 : Int) ^ expBits ≤ (e.toNat : Int) - 1023 + biasX →
    exec (.rebias e f expBits fracBits biasX) s
      = .next { s with sub := .rebias ((2 : Int) ^ expBits - 1) 0 false }) ∧
  (∀ (val : Word) (totBits expBits : Byte) (s : State), DescriptorLegal totBits.toNat expBits.toNat → Normal val →
    (2 : Int) ^ expBits.toNat ≤ ne0 expBits.toNat (exponent val) →
    Gives val totBits expBits s
      (sign val * 2 ^ (totBits.toNat - 1) + (2 ^ expBits.toNat - 1) * 2 ^ fracBits totBits expBits)) ∧
  (∀ s : State,
    exec (.rebias 1056 0x2A05F20000000 4 3 7) s = .next { s with sub := .rebias 15 0 false } ∧
    Answers 0x4202A05F20000000 8 4 s (.result 0x78))

/-- 41_exponent_rebias.md R128, case 3b: `ne0 < −fracBits` flushes to zero, and ENCODE keeps the sign. -/
def Obligations.UnderflowFlushesToSignedZero : Prop :=
  (∀ (e : BitVec 11) (f : BitVec 52) (expBits fracBits biasX : Nat) (s : State),
    RebiasOperandsLegal expBits fracBits biasX → 1 ≤ e.toNat → e.toNat ≤ 2046 →
    (e.toNat : Int) - 1023 + biasX < -(fracBits : Int) →
    exec (.rebias e f expBits fracBits biasX) s = .next { s with sub := .rebias 0 0 false }) ∧
  (∀ (val : Word) (totBits expBits : Byte) (s : State), DescriptorLegal totBits.toNat expBits.toNat → Normal val →
    ne0 expBits.toNat (exponent val) < -(fracBits totBits expBits : Int) →
    Gives val totBits expBits s (sign val * 2 ^ (totBits.toNat - 1))) ∧
  (∀ s : State, Answers 0x01A56E1FC2F8F359 8 4 s (.result 0))

/-- 41_exponent_rebias.md R129, case 3c: `−fracBits ≤ ne0 ≤ 0` gives exponent 0 and the 53-bit significand `f + 2^52` shifted right by
`1 − ne0`; the shift leaves it below `2^52`. That the implicit 1 is part of what is shifted is the spec's decision D6. -/
def Obligations.TargetSubnormalShiftsTheSignificand : Prop :=
  (∀ (e : BitVec 11) (f : BitVec 52) (expBits fracBits biasX : Nat) (s : State),
    RebiasOperandsLegal expBits fracBits biasX → 1 ≤ e.toNat → e.toNat ≤ 2046 →
    -(fracBits : Int) ≤ (e.toNat : Int) - 1023 + biasX → (e.toNat : Int) - 1023 + biasX ≤ 0 →
    ∃ fw : BitVec 52, exec (.rebias e f expBits fracBits biasX) s = .next { s with sub := .rebias 0 fw false } ∧
      fw.toNat = (f.toNat + 2 ^ 52) / 2 ^ (1 - ((e.toNat : Int) - 1023 + biasX)).toNat) ∧
  (∀ s : State,
    exec (.rebias 1015 0 4 3 7) s = .next { s with sub := .rebias 0 0x4000000000000 false } ∧
    exec (.rebias 1015 0x8000000000000 4 3 7) s = .next { s with sub := .rebias 0 0x6000000000000 false } ∧
    Answers 0x3F70000000000000 8 4 s (.result 2) ∧ Answers 0x3F78000000000000 8 4 s (.result 3))

/-- 41_exponent_rebias.md R130, case 3d: `1 ≤ ne0 ≤ 2^expBits − 1` passes exponent and fraction through. -/
def Obligations.InRangeExponentPassesThrough : Prop :=
  (∀ (e : BitVec 11) (f : BitVec 52) (expBits fracBits biasX : Nat) (s : State),
    RebiasOperandsLegal expBits fracBits biasX → 1 ≤ e.toNat → e.toNat ≤ 2046 →
    1 ≤ (e.toNat : Int) - 1023 + biasX → (e.toNat : Int) - 1023 + biasX ≤ 2 ^ expBits - 1 →
    exec (.rebias e f expBits fracBits biasX) s
      = .next { s with sub := .rebias ((e.toNat : Int) - 1023 + biasX) f false }) ∧
  (∀ s : State,
    exec (.rebias 1023 0x4000000000000 8 23 127) s = .next { s with sub := .rebias 127 0x4000000000000 false } ∧
    Answers 0x3FF4000000000000 32 8 s (.result 0x3FA00000))

/-- 41_exponent_rebias.md R131, R132: REBIAS gives an exponent in `[0, 2^expBits − 1]`, in every case but a binary64 subnormal with
expBits of at most 10, and there a negative one. -/
def Obligations.RebiasedExponentRange : Prop :=
  ∀ (e : BitVec 11) (f : BitVec 52) (expBits fracBits biasX : Nat) (s : State),
    RebiasOperandsLegal expBits fracBits biasX →
    ∃ newExp fw isNan, exec (.rebias e f expBits fracBits biasX) s = .next { s with sub := .rebias newExp fw isNan } ∧
      ((e = 0 ∧ f ≠ 0 ∧ expBits ≤ 10) → -1022 ≤ newExp ∧ newExp < 0) ∧
      (¬ (e = 0 ∧ f ≠ 0 ∧ expBits ≤ 10) → 0 ≤ newExp ∧ newExp ≤ 2 ^ expBits - 1)

/-- The model's choice (log entries 10 and 11, DESIGN CHOICE): REBIAS on operands of no legal descriptor, and ADAPT on a fracBits
outside 1 to 62, complete
with free values and change nothing else. -/
def Obligations.OperandsOffDomainGiveFreeValues : Prop :=
  (∀ (e : BitVec 11) (f : BitVec 52) (expBits fracBits biasX : Nat) (s : State),
    ¬ RebiasOperandsLegal expBits fracBits biasX →
    exec (.rebias e f expBits fracBits biasX) s
      = .next { s with
          sub := .rebias (Config.freeNewExp s.draws) (Config.freeFw s.draws) (Config.freeIsNan s.draws)
          draws := s.draws + 1 }) ∧
  (∀ (fw : BitVec 52) (fracBits : Nat) (isNan : Bool) (s : State), fracBits = 0 ∨ 63 ≤ fracBits →
    exec (.adapt fw fracBits isNan) s
      = .next { s with sub := .frac (Config.freeFracOut s.draws), draws := s.draws + 1 })

/-! ## The fraction width adapter (42_fraction_adapter.md) -/

/-- 42_fraction_adapter.md R151: below 52 bits the fraction is shifted right by `52 − fracBits`, with no rounding. -/
def Obligations.AdaptTruncatesNarrowFractions : Prop :=
  (∀ (fw : BitVec 52) (fracBits : Nat) (s : State), 1 ≤ fracBits → fracBits < 52 →
    ∃ fracOut : BitVec 62, exec (.adapt fw fracBits false) s = .next { s with sub := .frac fracOut } ∧
      fracOut.toNat = fw.toNat / 2 ^ (52 - fracBits)) ∧
  (∀ s : State, exec (.adapt 0xE000000000000 3 false) s = .next { s with sub := .frac 7 })

/-- 42_fraction_adapter.md R152: from 52 bits up the fraction is shifted left by `fracBits − 52`, which at 52 is the identity. -/
def Obligations.AdaptExtendsWideFractions : Prop :=
  (∀ (fw : BitVec 52) (fracBits : Nat) (s : State), 52 ≤ fracBits → fracBits ≤ 62 →
    ∃ fracOut : BitVec 62, exec (.adapt fw fracBits false) s = .next { s with sub := .frac fracOut } ∧
      fracOut.toNat = fw.toNat * 2 ^ (fracBits - 52) ∧ (fracBits = 52 → fracOut.toNat = fw.toNat)) ∧
  (∀ s : State,
    exec (.adapt 1 54 false) s = .next { s with sub := .frac 4 } ∧
    exec (.adapt 1 52 false) s = .next { s with sub := .frac 1 })

/-- 42_fraction_adapter.md R153: the NaN fraction is `2^fracBits − 1`, whatever the working fraction. -/
def Obligations.AdaptSetsNanFractionDirectly : Prop :=
  (∀ (fw : BitVec 52) (fracBits : Nat) (s : State), 1 ≤ fracBits → fracBits ≤ 62 →
    ∃ fracOut : BitVec 62, exec (.adapt fw fracBits true) s = .next { s with sub := .frac fracOut } ∧
      fracOut.toNat = 2 ^ fracBits - 1) ∧
  (∀ (fw : BitVec 52) (s : State),
    exec (.adapt fw 3 true) s = .next { s with sub := .frac 7 } ∧
    exec (.adapt fw 52 true) s = .next { s with sub := .frac 0xFFFFFFFFFFFFF } ∧
    exec (.adapt fw 62 true) s = .next { s with sub := .frac 0x3FFFFFFFFFFFFFFF })

/-- 42_fraction_adapter.md R155: in every case the fraction is below `2^fracBits`. -/
def Obligations.AdaptedFractionFits : Prop :=
  ∀ (fw : BitVec 52) (fracBits : Nat) (isNan : Bool) (s : State), 1 ≤ fracBits → fracBits ≤ 62 →
    ∃ fracOut : BitVec 62, exec (.adapt fw fracBits isNan) s = .next { s with sub := .frac fracOut } ∧
      fracOut.toNat < 2 ^ fracBits

/-- 42_fraction_adapter.md R157: case 3c through both stages. Below 52 bits the two right shifts compose; above 52 the low bits
are lost before the extension; at `ne0 = −fracBits` the fraction is 0. -/
def Obligations.SubnormalStagesCompose : Prop :=
  ∀ (val : Word) (totBits expBits : Byte) (s : State), DescriptorLegal totBits.toNat expBits.toNat → Normal val →
    -(fracBits totBits expBits : Int) ≤ ne0 expBits.toNat (exponent val) → ne0 expBits.toNat (exponent val) ≤ 0 →
    (fracBits totBits expBits < 52 → Gives val totBits expBits s (sign val * 2 ^ (totBits.toNat - 1)
      + (fraction val + 2 ^ 52) /
          2 ^ (53 - ne0 expBits.toNat (exponent val) - (fracBits totBits expBits : Int)).toNat)) ∧
    (52 < fracBits totBits expBits → Gives val totBits expBits s (sign val * 2 ^ (totBits.toNat - 1)
      + (fraction val + 2 ^ 52) / 2 ^ (1 - ne0 expBits.toNat (exponent val)).toNat
          * 2 ^ (fracBits totBits expBits - 52))) ∧
    (ne0 expBits.toNat (exponent val) = -(fracBits totBits expBits : Int) →
      Gives val totBits expBits s (sign val * 2 ^ (totBits.toNat - 1)))

/-! ## ENCODE (43_encode.md) -/

/-- 43_encode.md R179 with R174: on a legal descriptor ENCODE completes with the result the table of cases gives, under
P_SUBNORM_EXP_PACK = `masked` or wherever that parameter does not matter. -/
def Obligations.EncodeFollowsTheCaseTable : Prop :=
  ∀ (val : Word) (totBits expBits : Byte) (s : State), DescriptorLegal totBits.toNat expBits.toNat →
    s.params.subnormExpPack = .masked ∨ ¬ Subnormal val ∨ 11 ≤ expBits.toNat →
    Gives val totBits expBits s (encoded val totBits expBits)

/-- 43_encode.md R175 under P_SUBNORM_EXP_PACK = `any`: a binary64 subnormal with expBits of at most 10 gives an unconstrained
result, one draw of the free value, and no fault. It holds whatever that value is. -/
def Obligations.AnyPackingDrawsTheWholeResult : Prop :=
  ∀ (val : Word) (totBits expBits : Byte) (s : State), DescriptorLegal totBits.toNat expBits.toNat →
    s.params.subnormExpPack = .any → Subnormal val → expBits.toNat ≤ 10 →
    Answers val totBits expBits s (.result (Config.freeResult s.draws))

/-- 60_exceptions.md R200: an ENCODE whose descriptor is illegal is answered with PreconditionViolation, code 1, with the request's
own totBits and expBits as info, the totBits half first; a legal one never is. Nothing is clamped: no result is given. -/
def Obligations.IllegalDescriptorFaults : Prop :=
  (∀ (val : Word) (totBits expBits : Byte) (s : State), ¬ DescriptorLegal totBits.toNat expBits.toNat →
    ∃ which, Answers val totBits expBits s (.fault (.preconditionViolation which totBits expBits)) ∧
      (Fault.preconditionViolation which totBits expBits).code = 1 ∧
      (which = .totBits ↔ ¬ (3 ≤ totBits.toNat ∧ totBits.toNat ≤ 64))) ∧
  (∀ (val : Word) (totBits expBits : Byte) (s : State), DescriptorLegal totBits.toNat expBits.toNat →
    ∃ r, Answers val totBits expBits s (.result r))

/-- 40_bitfield.md R106, 60_exceptions.md R203: ENCODE never raises InvalidBitRange, and P_BITRANGE never changes its response. -/
def Obligations.BitRangeNeverReachesEncode : Prop :=
  ∀ (val : Word) (totBits expBits : Byte) (pack : SubnormExpPack) (s : State), s.params.subnormExpPack = pack →
    ∃ rsp, Answers val totBits expBits s rsp ∧
      (∀ pos width, rsp ≠ .fault (.invalidBitRange pos width)) ∧
      ∀ mode, respond ⟨pack, mode⟩ (Config.freeResult s.draws) val totBits expBits = rsp

/-- 43_encode.md R176: the bits of a result above the window are 0. -/
def Obligations.BitsAboveTheWindowAreZero : Prop :=
  ∀ (val : Word) (totBits expBits : Byte) (s : State), DescriptorLegal totBits.toNat expBits.toNat →
    s.params.subnormExpPack = .masked ∨ ¬ Subnormal val ∨ 11 ≤ expBits.toNat →
    ∃ r : Word, Answers val totBits expBits s (.result r) ∧ ∀ j, totBits.toNat ≤ j → r.getLsbD j = false

/-- 43_encode.md R177: the sign of the result is the sign of the input, in every case. -/
def Obligations.SignPassesThrough : Prop :=
  ∀ (val : Word) (totBits expBits : Byte) (s : State), DescriptorLegal totBits.toNat expBits.toNat →
    s.params.subnormExpPack = .masked ∨ ¬ Subnormal val ∨ 11 ≤ expBits.toNat →
    ∃ r : Word, Answers val totBits expBits s (.result r) ∧ r.getLsbD (totBits.toNat - 1) = val.getLsbD 63

/-- 10_state.md R24, 43_encode.md R178: the response is a function of the request alone, the same at any two states, whatever ran
before and whatever is in flight (but for the free draw of P_SUBNORM_EXP_PACK = `any`). -/
def Obligations.ResponseDependsOnTheRequestAlone : Prop :=
  ∀ (val : Word) (totBits expBits : Byte), ∃ rsp, ∀ s : State, s.params.subnormExpPack = .masked →
    Answers val totBits expBits s rsp

/-- 43_encode.md R180: at (64, 11) ENCODE gives back every input but binary64 subnormals, which gain exponent field 1, and NaNs, whose
fraction becomes all ones. -/
def Obligations.Binary64ShapedFormatIsIdentity : Prop :=
  ∀ (val : Word) (s : State),
    (¬ Subnormal val → ¬ (exponent val = 2047 ∧ fraction val ≠ 0) → Answers val 64 11 s (.result val)) ∧
    (Subnormal val → Gives val 64 11 s (val.toNat + 2 ^ 52)) ∧
    (exponent val = 2047 → fraction val ≠ 0 → Gives val 64 11 s (sign val * 2 ^ 63 + (2 ^ 63 - 1)))

/-- 95_test_vectors.md Property 4 with 30_encoding.md R65: a normal double whose exponent is in range and whose fraction fits is
recovered exactly by reading the result in its format. -/
def Obligations.ExactNormalsRoundTrip : Prop :=
  ∀ (val : Word) (totBits expBits : Byte) (s : State), DescriptorLegal totBits.toNat expBits.toNat → Normal val →
    1 ≤ ne0 expBits.toNat (exponent val) → ne0 expBits.toNat (exponent val) ≤ 2 ^ expBits.toNat - 2 →
    fraction val % 2 ^ (52 - fracBits totBits expBits) = 0 →
    ∃ r, Answers val totBits expBits s (.result r) ∧
      readFloatx totBits.toNat expBits.toNat r = readBinary64 val

/-- 42_fraction_adapter.md R156: truncation is toward zero. An in-range normal reads back with its own sign and a magnitude at
most its own, less than one unit of the last place below. -/
def Obligations.NormalsTruncateTowardZero : Prop :=
  ∀ (val : Word) (totBits expBits : Byte) (s : State), DescriptorLegal totBits.toNat expBits.toNat → Normal val →
    1 ≤ ne0 expBits.toNat (exponent val) → ne0 expBits.toNat (exponent val) ≤ 2 ^ expBits.toNat - 2 →
    ∃ r, Answers val totBits expBits s (.result r) ∧
      floatxSign totBits.toNat r = val.getLsbD 63 ∧
      floatxMagnitude totBits.toNat expBits.toNat r ≤ floatxMagnitude 64 11 val ∧
      floatxMagnitude 64 11 val - floatxMagnitude totBits.toNat expBits.toNat r
        < (2 : ℚ) ^ ((exponent val : Int) - 1023 - (fracBits totBits expBits : Int))

/-- 41_exponent_rebias.md R133: a normal input with `ne0 = 2^expBits − 1` passes through with an all-ones exponent field, and its
result reads as infinity if its truncated fraction is 0, else as NaN. -/
def Obligations.LargestExponentReadsAsInfinityOrNan : Prop :=
  ∀ (val : Word) (totBits expBits : Byte) (s : State), DescriptorLegal totBits.toNat expBits.toNat → Normal val →
    ne0 expBits.toNat (exponent val) = 2 ^ expBits.toNat - 1 →
    ∃ r, Answers val totBits expBits s (.result r) ∧
      readFloatx totBits.toNat expBits.toNat r =
        if adapted (fracBits totBits expBits) (fraction val) = 0 then .infinity (val.getLsbD 63) else .nan

/-- From 43_encode.md R174 and R179 with 41_exponent_rebias.md R128 to R130: of two positive normal doubles that do not overflow,
the greater has the result that is greater or equal as a pattern, in one format. -/
def Obligations.EncodingIsMonotone : Prop :=
  ∀ (v w : Word) (totBits expBits : Byte) (s : State), DescriptorLegal totBits.toNat expBits.toNat →
    Normal v → Normal w → sign w = 0 → v.toNat ≤ w.toNat →
    ne0 expBits.toNat (exponent w) ≤ 2 ^ expBits.toNat - 1 →
    ∃ a b : Word, Answers v totBits expBits s (.result a) ∧ Answers w totBits expBits s (.result b) ∧ a.toNat ≤ b.toNat

/-! ## Frames -/

/-- What ENCODE leaves unchanged (10_state.md R24, 43_encode.md R178): parameters, input ports, the host's queue, the sub-function
lines and the number of stages; the run's responses only grow, and a recorded fault stays. There are no registers, flags or
memory to change (10_state.md R20 to R23, R30). -/
def Obligations.EncodeFrame : Prop :=
  ∀ (val : Word) (totBits expBits : Byte) (s t : State), exec (.encode val totBits expBits) s = .next t →
    t.params = s.params ∧ t.inp = s.inp ∧ t.host = s.host ∧ t.sub = s.sub ∧ t.latency = s.latency ∧
    t.draws = s.draws + 1 ∧ s.responses <+: t.responses ∧ t.responses.length ≤ s.responses.length + 1 ∧
    (∀ f, s.fault = some f → t.fault = some f)

/-- What GETBIT, GETBITFLD, SETBIT, SETBITFLD, REBIAS and ADAPT leave unchanged (40_bitfield.md R105): ports, pipeline, responses,
parameters and the host's queue. A fault is recorded only by a bit-field primitive out of range (60_exceptions.md
R203), and never over another (R201; that the first one is kept is log entry 7, DEDUCED). -/
def Obligations.SubFunctionFrame : Prop :=
  ∀ (i : Instr) (s t : State), (∀ val totBits expBits, i ≠ .encode val totBits expBits) → exec i s = .next t →
    t.params = s.params ∧ t.inp = s.inp ∧ t.out = s.out ∧ t.pipe = s.pipe ∧ t.responses = s.responses ∧
    t.host = s.host ∧ (t.fault = s.fault ∨ (s.fault = none ∧ ∃ pos width, t.fault = some (.invalidBitRange pos width))) ∧
    (i.WellFormed → t.fault = s.fault ∧ t.draws = s.draws ∧ ∀ f, t.sub ≠ .raised f)

/-! ## Steps, timing and reset (10_state.md, 20_memory.md, 60_exceptions.md, 70_reset_and_hazards.md) -/

/-- A step at a state whose next cycle presents a request runs the instruction its request word decodes to, on the state with the
host's values driven onto the input ports; the other cycles run none (log entry 3, DESIGN CHOICE). With nothing queued the inputs
are held with `in_valid_i` and `rst_i` low: at LATENCY = 0 nothing changes, otherwise the edge accepts nothing (log entry 1,
DESIGN CHOICE). -/
def Obligations.StepRunsTheDecodedRequest : Prop :=
  (∀ (s : State) (i : Inputs) (rest : List Inputs) (ins : Instr), s.host = i :: rest → decode i.req = .ok ins →
    (s.latency = 0 ∨ (i.rst_i = false ∧ i.in_valid_i = true) → step s = exec ins { s with inp := i, host := rest }) ∧
    (s.latency ≠ 0 → i.rst_i = true → step s = .next (State.resetEdge { s with inp := i, host := rest })) ∧
    (s.latency ≠ 0 → i.rst_i = false → i.in_valid_i = false →
      step s = .next (State.clock none { s with inp := i, host := rest }))) ∧
  (∀ s : State, s.host = [] →
    (s.latency = 0 → step s = .next s) ∧
    (s.latency ≠ 0 →
      step s = .next (State.clock none { s with inp := { s.inp with in_valid_i := false, rst_i := false } })))

/-- A request placed with withFetchWord is what the very next step runs, in every state whatever its LATENCY. -/
def Obligations.PlacedRequestRunsNext : Prop :=
  ∀ (s : State) (req : ReqWord) (ins : Instr), decode req = .ok ins →
    ∃ i : Inputs, i.req = req ∧ step (s.withFetchWord 80 req.toNat) = exec ins { s with inp := i }

/-- 70_reset_and_hazards.md R233, R236 at LATENCY = 0: the response is on the outputs at once, in the run's list, and a fault in it
is recorded (60_exceptions.md R201), unless the run has one already, which it keeps (log entry 7, DEDUCED). -/
def Obligations.CombinationalAnswersAtOnce : Prop :=
  ∀ (val : Word) (totBits expBits : Byte) (s : State), s.latency = 0 →
    ∃ rsp t, Answers val totBits expBits s rsp ∧ exec (.encode val totBits expBits) s = .next t ∧
      t.out.Carries rsp ∧ t.responses = s.responses ++ [rsp] ∧ t.latency = 0 ∧
      (∀ f, rsp = .fault f → t.fault = some (s.fault.getD f)) ∧
      (∀ r, rsp = .result r → t.fault = s.fault)

/-- 70_reset_and_hazards.md R236: in a registered implementation a request accepted now is on the outputs, with out_valid_o high,
LATENCY steps later, whatever is presented in between, as long as reset stays low. -/
def Obligations.ResponseComesAfterLatency : Prop :=
  ∀ (s : State) (i : Inputs) (rest : List Inputs), s.host = i :: rest → s.latency ≠ 0 →
    i.rst_i = false → i.in_valid_i = true → (∀ j ∈ rest.take (s.latency - 1), j.rst_i = false) →
    ∃ t rsp, core.run s.latency s = .next t ∧ Answers i.val_i i.tot_bits_i i.exp_bits_i s rsp ∧
      t.out.out_valid_o = true ∧ t.out.Carries rsp ∧ t.responses.getLast? = some rsp

/-- 20_memory.md R47: responses leave in the order their requests were accepted, one each: a step without reset keeps the sequence of
responses given and still in flight and adds the newly accepted one's at its end. -/
def Obligations.ResponsesLeaveInOrder : Prop :=
  ∀ s t : State, step s = .next t → resetNext s = false →
    t.responses ++ t.inFlight = s.responses ++ s.inFlight ++ acceptedNext s

/-- 70_reset_and_hazards.md R232: at an edge with `rst_i` high every valid bit is cleared, `out_valid_o` goes to 0, the requests in
flight get no response, a request presented at that edge is not accepted, and the run's fault stays. -/
def Obligations.ResetClearsEveryValidBit : Prop :=
  ∀ s t : State, step s = .next t → resetNext s = true →
    (∀ x ∈ t.pipe, x = none) ∧ t.latency = s.latency ∧ t.out.out_valid_o = false ∧
    t.responses = s.responses ∧ t.inFlight = [] ∧ t.fault = s.fault

/-- 60_exceptions.md R201: a later request, and any other step or sub-function, does not clear the fault a run has met. -/
def Obligations.RecordedFaultIsNeverCleared : Prop :=
  (∀ (s t : State) (f : Fault), s.fault = some f → step s = .next t → t.fault = some f) ∧
  (∀ (i : Instr) (s t : State) (f : Fault), s.fault = some f → exec i s = .next t → t.fault = some f)

/-- 60_exceptions.md R201, R206 and 70_reset_and_hazards.md R235: no step and no instruction ever stops the machine; a fault is
reported and the block goes on (log entry 7, DEDUCED). -/
def Obligations.TheBlockAlwaysGoesOn : Prop :=
  (∀ s : State, ∃ t, step s = .next t) ∧ (∀ (i : Instr) (s : State), ∃ t, exec i s = .next t)

/-- LATENCY and the parameters are fixed for a machine (00_scope.md R7), and the host's queue only shortens. -/
def Obligations.ParametersNeverChange : Prop :=
  ∀ s t : State, step s = .next t → t.latency = s.latency ∧ t.params = s.params ∧ t.host = s.host.tail

/-- 70_reset_and_hazards.md R238 (queued cycles without a request: log entry 18, DESIGN CHOICE): every run ends. After one step for every cycle of the host and LATENCY more, every accepted
request has its response. -/
def Obligations.EveryRunEnds : Prop :=
  ∀ s : State, ∃ t, core.run (s.host.length + s.latency) s = .next t ∧ t.RunOver

/-- 70_reset_and_hazards.md R236, 20_memory.md R47: a one-step-per-request model is exact for every LATENCY. The same requests give
the same responses in the same order, and the same verdict, at every LATENCY, under P_SUBNORM_EXP_PACK = `masked`. -/
def Obligations.ResponsesDoNotDependOnLatency : Prop :=
  ∀ (n : Nat) (params : Params) (requests : List Inputs), params.subnormExpPack = .masked →
    (∀ i ∈ requests, i.rst_i = false ∧ i.in_valid_i = true) →
    ∃ t u, core.run requests.length { State.resetWith 0 params with host := requests } = .next t ∧
      core.run (requests.length + n) { State.resetWith n params with host := requests } = .next u ∧
      t.responses = u.responses ∧ t.fault = u.fault ∧ t.responses.length = requests.length

/-- What a step keeps (`State.Inv`): the outputs show the last stage (or, at LATENCY = 0, the response to the input ports), the
verdict is the first fault reported (log entry 7, DEDUCED), and every response is a result or a lawful PreconditionViolation:
InvalidBitRange never is seen at the ports. That responses are those of the requests is for ResponsesLeaveInOrder to say. -/
def Obligations.StepKeepsTheInvariant : Prop :=
  ∀ s t : State, s.Inv → step s = .next t → t.Inv

/-- The invariant holds after reset, for every LATENCY and every value of the parameters. -/
def Obligations.ResetMeetsTheInvariant : Prop :=
  ∀ (latency : Nat) (params : Params), (State.resetWith latency params).Inv

/-- 70_reset_and_hazards.md R232, 00_scope.md R7: after reset every valid bit and `out_valid_o` are 0, nothing is in flight or
answered, and the parameters are the defaults. LATENCY = 0 in State.reset is the model's choice (log entry 6, DESIGN CHOICE). -/
def Obligations.ResetState : Prop :=
  (∀ (latency : Nat) (params : Params), (State.resetWith latency params).latency = latency ∧
    (∀ x ∈ (State.resetWith latency params).pipe, x = none) ∧
    (State.resetWith latency params).out.out_valid_o = false ∧
    (State.resetWith latency params).responses = [] ∧ (State.resetWith latency params).inFlight = [] ∧
    (State.resetWith latency params).fault = none ∧ (State.resetWith latency params).params = params) ∧
  State.reset = State.resetWith 0 Params.default ∧ State.reset.latency = 0 ∧
  State.reset.params.subnormExpPack = .masked ∧ State.reset.params.bitRange = .fault ∧ core.reset = State.reset

/-- 30_encoding.md R67: the response word is the fault bit over the 64 result bits. -/
def Obligations.ResponseWordIsFaultThenResult : Prop :=
  ∀ o : Outputs, o.rsp.getLsbD 64 = o.fault_o ∧ o.rsp.setWidth 64 = o.result_o ∧
    o.rsp.toNat = (if o.fault_o then 2 ^ 64 else 0) + o.result_o.toNat
end

