-- ==== Sys2Proof/Laws/State.lean ====
section
/-! SUPPORT. One lemma per field per update of the state, true by unfolding the update. -/

namespace Sys2Proof.Machine

section RecordFault
variable (f : Fault) (s : State)
@[simp] theorem State.recordFault_params : (s.recordFault f).params = s.params := rfl
@[simp] theorem State.recordFault_inp : (s.recordFault f).inp = s.inp := rfl
@[simp] theorem State.recordFault_out : (s.recordFault f).out = s.out := rfl
@[simp] theorem State.recordFault_pipe : (s.recordFault f).pipe = s.pipe := rfl
@[simp] theorem State.recordFault_responses : (s.recordFault f).responses = s.responses := rfl
@[simp] theorem State.recordFault_fault : (s.recordFault f).fault = some (s.fault.getD f) := rfl
@[simp] theorem State.recordFault_sub : (s.recordFault f).sub = s.sub := rfl
@[simp] theorem State.recordFault_host : (s.recordFault f).host = s.host := rfl
@[simp] theorem State.recordFault_draws : (s.recordFault f).draws = s.draws := rfl
end RecordFault

section Deliver
variable (r : Option Response) (s : State)
@[simp] theorem State.deliver_params : (s.deliver r).params = s.params := rfl
@[simp] theorem State.deliver_inp : (s.deliver r).inp = s.inp := rfl
@[simp] theorem State.deliver_out : (s.deliver r).out = portsOf s.draws r := rfl
@[simp] theorem State.deliver_pipe : (s.deliver r).pipe = s.pipe := rfl
@[simp] theorem State.deliver_responses : (s.deliver r).responses = s.responses ++ r.toList := rfl
@[simp] theorem State.deliver_fault : (s.deliver r).fault = (s.fault <|> r.bind Response.faultOf) := rfl
@[simp] theorem State.deliver_sub : (s.deliver r).sub = s.sub := rfl
@[simp] theorem State.deliver_host : (s.deliver r).host = s.host := rfl
@[simp] theorem State.deliver_draws : (s.deliver r).draws = s.draws + 1 := rfl
end Deliver

section Clock
variable (r : Option Response) (s : State)
@[simp] theorem State.clock_params : (s.clock r).params = s.params := rfl
@[simp] theorem State.clock_inp : (s.clock r).inp = s.inp := rfl
@[simp] theorem State.clock_out : (s.clock r).out = portsOf s.draws (arriving r s.pipe) := rfl
@[simp] theorem State.clock_pipe : (s.clock r).pipe = shiftPipe r s.pipe := rfl
@[simp] theorem State.clock_responses :
    (s.clock r).responses = s.responses ++ (arriving r s.pipe).toList := rfl
@[simp] theorem State.clock_fault :
    (s.clock r).fault = (s.fault <|> (arriving r s.pipe).bind Response.faultOf) := rfl
@[simp] theorem State.clock_sub : (s.clock r).sub = s.sub := rfl
@[simp] theorem State.clock_host : (s.clock r).host = s.host := rfl
@[simp] theorem State.clock_draws : (s.clock r).draws = s.draws + 1 := rfl
end Clock

section ResetEdge
variable (s : State)
@[simp] theorem State.resetEdge_params : s.resetEdge.params = s.params := rfl
@[simp] theorem State.resetEdge_inp : s.resetEdge.inp = s.inp := rfl
@[simp] theorem State.resetEdge_out : s.resetEdge.out = portsOf s.draws none := rfl
@[simp] theorem State.resetEdge_pipe : s.resetEdge.pipe = List.replicate s.pipe.length none := rfl
@[simp] theorem State.resetEdge_sub : s.resetEdge.sub = s.sub := rfl
@[simp] theorem State.resetEdge_host : s.resetEdge.host = s.host := rfl
@[simp] theorem State.resetEdge_draws : s.resetEdge.draws = s.draws + 1 := rfl
@[simp] theorem State.resetEdge_responses : s.resetEdge.responses = s.responses := by
  simp [State.resetEdge]
@[simp] theorem State.resetEdge_fault : s.resetEdge.fault = s.fault := by
  simp [State.resetEdge]
end ResetEdge

section Present
variable (i : Inputs) (rest : List Inputs) (s : State)
@[simp] theorem State.present_params : (s.present i rest).params = s.params := rfl
@[simp] theorem State.present_inp : (s.present i rest).inp = i := rfl
@[simp] theorem State.present_out : (s.present i rest).out = s.out := rfl
@[simp] theorem State.present_pipe : (s.present i rest).pipe = s.pipe := rfl
@[simp] theorem State.present_responses : (s.present i rest).responses = s.responses := rfl
@[simp] theorem State.present_fault : (s.present i rest).fault = s.fault := rfl
@[simp] theorem State.present_sub : (s.present i rest).sub = s.sub := rfl
@[simp] theorem State.present_host : (s.present i rest).host = rest := rfl
@[simp] theorem State.present_draws : (s.present i rest).draws = s.draws := rfl
end Present

end Sys2Proof.Machine
end

