-- ==== Sys2Proof/Laws/Ops.lean ====
section
/-! SUPPORT. One lemma per shared operation that says what it can do, for proofs to cite instead of unfolding it. -/

namespace Sys2Proof.Machine

/-- An edge neither adds nor removes a stage. -/
@[simp] theorem shiftPipe_length (r : Option Response) (pipe : List (Option Response)) :
    (shiftPipe r pipe).length = pipe.length := by
  simp [shiftPipe]

@[simp] theorem shiftPipe_nil (r : Option Response) : shiftPipe r [] = [] := rfl

/-- In a registered implementation the request enters the first stage. -/
theorem shiftPipe_cons (r x : Option Response) (pipe : List (Option Response)) :
    shiftPipe r (x :: pipe) = r :: (x :: pipe).dropLast := rfl

@[simp] theorem arriving_nil (r : Option Response) : arriving r [] = r := rfl

/-- In a registered implementation what arrives is the new last stage. -/
theorem getLast?_shiftPipe (r : Option Response) {pipe : List (Option Response)} (h : pipe ≠ []) :
    (shiftPipe r pipe).getLast? = some (arriving r pipe) := by
  obtain ⟨x, xs, rfl⟩ := List.exists_cons_of_ne_nil h
  simp [arriving, shiftPipe_cons, List.getLast?_cons]

/-- What arrives was in the pipeline or has just been presented. -/
theorem arriving_mem (r : Option Response) (pipe : List (Option Response)) : arriving r pipe ∈ r :: pipe := by
  cases pipe with
  | nil => simp
  | cons x xs =>
    have h := List.mem_of_getLast? (getLast?_shiftPipe r (pipe := x :: xs) (by simp))
    exact List.mem_of_mem_dropLast h

@[simp] theorem State.clock_latency (r : Option Response) (s : State) : (s.clock r).latency = s.latency := by
  simp [State.latency]

@[simp] theorem State.resetEdge_latency (s : State) : s.resetEdge.latency = s.latency := by
  simp [State.latency]

@[simp] theorem State.present_latency (i : Inputs) (rest : List Inputs) (s : State) :
    (s.present i rest).latency = s.latency := rfl

/-- A bit range is acted on whole, or (out of range) not at all, or only below 64 (40_bitfield.md R104). -/
theorem rangeWidth_cases (mode : BitRange) (pos width : Nat) :
    (pos + width ≤ 64 ∧ rangeWidth mode pos width = .ok width) ∨
    (64 < pos + width ∧ mode = .fault ∧ rangeWidth mode pos width = .error (.invalidBitRange pos width)) ∨
    (64 < pos + width ∧ mode = .masked ∧ rangeWidth mode pos width = .ok (64 - pos)) := by
  unfold rangeWidth CAP
  split
  · exact .inl ⟨‹_›, rfl⟩
  · cases mode
    · exact .inr (.inl ⟨by omega, rfl, rfl⟩)
    · exact .inr (.inr ⟨by omega, rfl, rfl⟩)

/-- The precondition check fails exactly on an illegal descriptor (43_encode.md R171). -/
theorem checkDescriptor_cases (totBits expBits : Byte) :
    (DescriptorLegal totBits.toNat expBits.toNat ∧ checkDescriptor totBits expBits = .ok ()) ∨
    (¬ DescriptorLegal totBits.toNat expBits.toNat ∧
      ∃ which, checkDescriptor totBits expBits = .error (.preconditionViolation which totBits expBits)) := by
  unfold checkDescriptor
  split
  · next h => exact .inr ⟨fun hl => h hl.1, _, rfl⟩
  · next h =>
    split
    · next h' => exact .inr ⟨fun hl => h' hl.2, _, rfl⟩
    · next h' => exact .inl ⟨⟨not_not.mp h, not_not.mp h'⟩, rfl⟩

/-- What a sub-function does to the state: it puts out its result, or it raises a fault. -/
theorem State.finishSub_cases (s : State) (r : Except Fault SubResult) :
    (∃ v, r = .ok v ∧ s.finishSub r = .next { s with sub := v }) ∨
    (∃ f, r = .error f ∧ s.finishSub r = .next { s.recordFault f with sub := .raised f }) := by
  cases r with
  | error f => exact .inr ⟨f, rfl, rfl⟩
  | ok v => exact .inl ⟨v, rfl, rfl⟩

/-- What a cycle can be (70_reset_and_hazards.md R232, R236). -/
theorem State.fetch_cases (s : State) :
    (s.host = [] ∧ s.fetch = .noRequest s.idleCycle) ∨
    (∃ i rest, s.host = i :: rest ∧
      (((s.latency = 0 ∨ (i.rst_i = false ∧ i.in_valid_i = true)) ∧
          s.fetch = .request (decodeReq i.req) (s.present i rest)) ∨
       (s.latency ≠ 0 ∧ i.rst_i = true ∧ s.fetch = .noRequest (s.present i rest).resetEdge) ∨
       (s.latency ≠ 0 ∧ i.rst_i = false ∧ i.in_valid_i = false ∧
          s.fetch = .noRequest ((s.present i rest).clock none)))) := by
  unfold State.fetch
  cases h : s.host with
  | nil => exact .inl ⟨rfl, rfl⟩
  | cons i rest =>
    refine .inr ⟨i, rest, rfl, ?_⟩
    by_cases hl : s.latency = 0
    · simp [hl]
    · cases hr : i.rst_i <;> cases hv : i.in_valid_i <;> simp [hl, hr, hv]

end Sys2Proof.Machine
end

