-- ==== Sys2Proof/Laws/BitField.lean ====
section
/-! SUPPORT. Reading and writing a field, bit by bit (spec/40_bitfield.md R101, R103). -/

namespace Sys2Proof.Machine

theorem readBits_getLsbD (pos width : Nat) (word : Word) (j : Nat) :
    (readBits pos width word).getLsbD j = (decide (j < width) && word.getLsbD (pos + j)) := by
  simp only [readBits, BitVec.getLsbD_ofNat, Nat.testBit_mod_two_pow, Nat.testBit_shiftRight, BitVec.testBit_toNat]
  by_cases h : j < 64
  · simp [h]
  · have : word.getLsbD (pos + j) = false := BitVec.getLsbD_of_ge _ _ (by omega)
    simp [this]

theorem readBits_toNat (pos width : Nat) (word : Word) :
    (readBits pos width word).toNat = word.toNat / 2 ^ pos % 2 ^ width := by
  have h : (word.toNat >>> pos) % 2 ^ width < 2 ^ 64 :=
    Nat.lt_of_le_of_lt ((Nat.mod_le _ _).trans (Nat.shiftRight_le _ _)) word.isLt
  rw [readBits, BitVec.toNat_ofNat, Nat.mod_eq_of_lt h, Nat.shiftRight_eq_div_pow]

/-- The parts of a number below, in and above a field. -/
theorem field_split (n pos width : Nat) :
    n = n / 2 ^ (pos + width) * 2 ^ (pos + width) + (n / 2 ^ pos % 2 ^ width) * 2 ^ pos + n % 2 ^ pos := by
  have h1 := Nat.div_add_mod n (2 ^ pos)
  have h2 := Nat.div_add_mod (n / 2 ^ pos) (2 ^ width)
  rw [Nat.div_div_eq_div_mul, ← Nat.pow_add] at h2
  calc n = 2 ^ pos * (n / 2 ^ pos) + n % 2 ^ pos := h1.symm
    _ = 2 ^ pos * (2 ^ width * (n / 2 ^ (pos + width)) + n / 2 ^ pos % 2 ^ width) + n % 2 ^ pos := by rw [h2]
    _ = _ := by rw [Nat.pow_add]; ring

/-- The low bits of an integer are below the power of two. -/
theorem lowBits_lt (value : Int) (width : Nat) : (value % 2 ^ width).toNat < 2 ^ width := by
  have h1 : value % (2 : Int) ^ width < 2 ^ width := Int.emod_lt_of_pos _ (by positivity)
  have h2 : 0 ≤ value % (2 : Int) ^ width := Int.emod_nonneg _ (by positivity)
  zify [h2]
  rw [Int.toNat_of_nonneg h2]
  exact h1

/-- A write replaces the part of the number in the field and keeps the other two. -/
theorem writeBits_toNat {pos width : Nat} (h : pos + width ≤ 64) (value : Int) (word : Word) :
    (writeBits pos width value word).toNat =
      word.toNat / 2 ^ (pos + width) * 2 ^ (pos + width) + (value % 2 ^ width).toNat * 2 ^ pos + word.toNat % 2 ^ pos := by
  have hs := field_split word.toNat pos width
  have hw := word.isLt
  have hv := lowBits_lt value width
  have hl : word.toNat % 2 ^ pos < 2 ^ pos := Nat.mod_lt _ (by positivity)
  have hd : word.toNat / 2 ^ (pos + width) < 2 ^ (64 - (pos + width)) := by
    rw [Nat.div_lt_iff_lt_mul (by positivity), ← Nat.pow_add]
    convert hw using 2
    omega
  have hb : word.toNat / 2 ^ (pos + width) * 2 ^ (pos + width) + (value % 2 ^ width).toNat * 2 ^ pos
      + word.toNat % 2 ^ pos < 2 ^ 64 := by
    have e1 : (2 : Nat) ^ 64 = 2 ^ (64 - (pos + width)) * 2 ^ (pos + width) := by
      rw [← Nat.pow_add]; congr 1; omega
    have e2 : (2 : Nat) ^ (pos + width) = 2 ^ width * 2 ^ pos := by rw [← Nat.pow_add, Nat.add_comm]
    have e3 : (value % 2 ^ width).toNat * 2 ^ pos + word.toNat % 2 ^ pos < 2 ^ (pos + width) := by
      rw [e2]
      have := Nat.mul_le_mul_right (2 ^ pos) (Nat.succ_le_of_lt hv)
      rw [Nat.succ_mul] at this
      omega
    have e4 := Nat.mul_le_mul_right (2 ^ (pos + width)) (Nat.succ_le_of_lt hd)
    rw [Nat.succ_mul] at e4
    omega
  rw [writeBits, BitVec.toNat_ofNat, Nat.shiftRight_eq_div_pow, Nat.mod_eq_of_lt (by omega)]
  omega

/-- Inside the field the bits are the value's, two's complement for a negative one; outside they are as they were. -/
theorem writeBits_getLsbD {pos width : Nat} (h : pos + width ≤ 64) (value : Int) (word : Word) (j : Nat) :
    (writeBits pos width value word).getLsbD j =
      if pos ≤ j ∧ j < pos + width then (value % 2 ^ width).toNat.testBit (j - pos) else word.getLsbD j := by
  have hs := field_split word.toNat pos width
  have hv := lowBits_lt value width
  have hl : word.toNat % 2 ^ pos < 2 ^ pos := Nat.mod_lt _ (by positivity)
  have key : ∀ a b c : Nat, b < 2 ^ width → c < 2 ^ pos → ∀ j,
      (a * 2 ^ (pos + width) + b * 2 ^ pos + c).testBit j =
        if j < pos then c.testBit j else if j < pos + width then b.testBit (j - pos) else a.testBit (j - (pos + width)) := by
    intro a b c hb hc j
    have e : a * 2 ^ (pos + width) + b * 2 ^ pos + c = 2 ^ pos * (2 ^ width * a + b) + c := by
      rw [Nat.pow_add]; ring
    rw [e, Nat.testBit_two_pow_mul_add _ hc]
    by_cases h1 : j < pos
    · simp [h1]
    · rw [if_neg h1, if_neg h1, Nat.testBit_two_pow_mul_add _ hb]
      by_cases h2 : j < pos + width
      · rw [if_pos (by omega), if_pos h2]
      · rw [if_neg (by omega), if_neg h2]; congr 1; omega
  rw [← BitVec.testBit_toNat, writeBits_toNat h, key _ _ _ hv hl]
  by_cases h1 : j < pos
  · rw [if_pos h1, if_neg (by omega), Nat.testBit_mod_two_pow, ← BitVec.testBit_toNat]; simp [h1]
  · by_cases h2 : j < pos + width
    · rw [if_neg h1, if_pos h2, if_pos (by omega)]
    · rw [if_neg h1, if_neg h2, if_neg (by omega), Nat.testBit_div_two_pow]
      rw [BitVec.testBit_toNat]; congr 1; omega

end Sys2Proof.Machine
end

