-- ==== Sys2Proof/Laws/Decode.lean ====
section
/-! SUPPORT. The request word bit by bit (spec/30_encoding.md R66). -/

namespace Sys2Proof

theorem packReq_getLsbD (val : Word) (totBits expBits : Byte) (i : Nat) :
    (packReq val totBits expBits).getLsbD i =
      if i < 64 then val.getLsbD i
      else if i - 64 < 8 then totBits.getLsbD (i - 64)
      else expBits.getLsbD (i - 64 - 8) := by
  have h : (packReq val totBits expBits).getLsbD i
      = ((expBits ++ totBits) ++ val : BitVec (8 + 8 + 64)).getLsbD i := rfl
  rw [h, BitVec.getLsbD_append, BitVec.getLsbD_append]

end Sys2Proof
end

