-- ==== Sys2Proof/Laws/Encode.lean ====
section
/-! SUPPORT. What ENCODE's datapath comes to, once the bit ranges are known to be in range (spec/40_bitfield.md R106). -/

namespace Sys2Proof.Machine

/-- In range, P_BITRANGE does not matter (40_bitfield.md R104). -/
theorem rangeWidth_of_le {mode : BitRange} {pos width : Nat} (h : pos + width ≤ 64) :
    rangeWidth mode pos width = .ok width := by
  simp [rangeWidth, CAP, h]

theorem checkDescriptor_of_legal {totBits expBits : Byte} (h : DescriptorLegal totBits.toNat expBits.toNat) :
    checkDescriptor totBits expBits = .ok () := by
  rcases checkDescriptor_cases totBits expBits with ⟨-, h'⟩ | ⟨h', -⟩
  · exact h'
  · exact absurd h h'

/-- The ranges of a legal descriptor (00_scope.md R6, 30_encoding.md R64). -/
theorem DescriptorLegal.bounds {totBits expBits : Nat} (h : DescriptorLegal totBits expBits) :
    3 ≤ totBits ∧ totBits ≤ 64 ∧ 1 ≤ expBits ∧ expBits ≤ 62 ∧
    1 ≤ fracBitsOf totBits expBits ∧ fracBitsOf totBits expBits ≤ 62 ∧
    fracBitsOf totBits expBits + expBits + 1 = totBits := by
  obtain ⟨⟨h1, h2⟩, h3, h4⟩ := h
  simp only [TOT_MIN, TOT_MAX, EXP_MIN, EXP_MAX, fracBitsOf] at *
  omega

/-- The sign, exponent and fraction ENCODE extracts (43_encode.md R172). -/
def extractedSign (val : Word) : BitVec 1 := (readBits 63 1 val).setWidth 1
def extractedExp (val : Word) : BitVec 11 := (readBits 52 11 val).setWidth 11
def extractedFrac (val : Word) : BitVec 52 := (readBits 0 52 val).setWidth 52

/-- Stage 1 of ENCODE on a request (43_encode.md R173). -/
def stage1 (val : Word) (totBits expBits : Byte) : Rebiased :=
  rebias (extractedExp val) (extractedFrac val) expBits.toNat
    (fracBitsOf totBits.toNat expBits.toNat) (biasOf expBits.toNat)

/-- Stage 2 of ENCODE on a request (43_encode.md R173). -/
def stage2 (val : Word) (totBits expBits : Byte) : BitVec 62 :=
  adapt (stage1 val totBits expBits).fw (fracBitsOf totBits.toNat expBits.toNat) (stage1 val totBits expBits).isNan

/-- The accumulator after the three writes (43_encode.md R174). -/
def packed (val : Word) (totBits expBits : Byte) : Word :=
  writeBits 0 (fracBitsOf totBits.toNat expBits.toNat) (stage2 val totBits expBits).toNat
    (writeBits (fracBitsOf totBits.toNat expBits.toNat) expBits.toNat
      (packExp (stage1 val totBits expBits).newExp expBits.toNat : Nat)
      (writeBits (totBits.toNat - 1) 1 (extractedSign val).toNat 0))

/-- On a legal descriptor the datapath completes, whatever P_BITRANGE is (40_bitfield.md R106). -/
theorem encodeDatapath_of_legal (mode : BitRange) (val : Word) {totBits expBits : Byte}
    (h : DescriptorLegal totBits.toNat expBits.toNat) :
    ∃ d, encodeDatapath mode val totBits expBits = .ok d ∧
      d.newExp = (stage1 val totBits expBits).newExp ∧ d.acc = packed val totBits expBits := by
  obtain ⟨h1, h2, h3, h4, h5, h6, h7⟩ := h.bounds
  have r1 : rangeWidth mode 63 1 = .ok 1 := rangeWidth_of_le (by omega)
  have r2 : rangeWidth mode 52 11 = .ok 11 := rangeWidth_of_le (by omega)
  have r3 : rangeWidth mode 0 52 = .ok 52 := rangeWidth_of_le (by omega)
  have r4 : rangeWidth mode (totBits.toNat - 1) 1 = .ok 1 := rangeWidth_of_le (by omega)
  have r5 : rangeWidth mode (fracBitsOf totBits.toNat expBits.toNat) expBits.toNat = .ok expBits.toNat :=
    rangeWidth_of_le (by omega)
  have r6 : rangeWidth mode 0 (fracBitsOf totBits.toNat expBits.toNat)
      = .ok (fracBitsOf totBits.toNat expBits.toNat) := rangeWidth_of_le (by omega)
  simp only [encodeDatapath, checkDescriptor_of_legal h, getBit, getBitFld, setBit, setBitFld, r1, r2, r3, r4, r5, r6,
    Except.map, bind, Except.bind, pure, Except.pure, Except.ok.injEq, exists_eq_left']
  exact ⟨rfl, rfl⟩

/-- On an illegal descriptor it faults before any other step (43_encode.md R171). -/
theorem encodeDatapath_of_illegal (mode : BitRange) (val : Word) {totBits expBits : Byte}
    (h : ¬ DescriptorLegal totBits.toNat expBits.toNat) :
    ∃ which, encodeDatapath mode val totBits expBits = .error (.preconditionViolation which totBits expBits) ∧
      checkDescriptor totBits expBits = .error (.preconditionViolation which totBits expBits) := by
  rcases checkDescriptor_cases totBits expBits with ⟨h', -⟩ | ⟨-, which, hw⟩
  · exact absurd h' h
  · exact ⟨which, by simp [encodeDatapath, hw, bind, Except.bind], hw⟩

/-- What a request is answered with (43_encode.md R170, R175): P_BITRANGE has no part in it. -/
theorem respond_eq (params : Params) (draw val : Word) (totBits expBits : Byte) :
    respond params draw val totBits expBits =
      match checkDescriptor totBits expBits with
      | .error f => .fault f
      | .ok _ =>
        if ExpFits (stage1 val totBits expBits).newExp expBits.toNat ∨ params.subnormExpPack = .masked then
          .result (packed val totBits expBits)
        else .result draw := by
  by_cases h : DescriptorLegal totBits.toNat expBits.toNat
  · obtain ⟨d, hd, hn, ha⟩ := encodeDatapath_of_legal params.bitRange val h
    rw [respond, hd, checkDescriptor_of_legal h]
    simp only [hn, ha]
    by_cases hf : ExpFits (stage1 val totBits expBits).newExp expBits.toNat
    · rw [if_pos hf, if_pos (.inl hf)]
    · rw [if_neg hf]
      cases params.subnormExpPack
      · rw [if_pos (.inr rfl)]
      · rw [if_neg (by simp only [hf, reduceCtorEq, or_self, not_false_eq_true])]
  · obtain ⟨which, hw, hc⟩ := encodeDatapath_of_illegal params.bitRange val h
    rw [respond, hw, hc]

/-- On a legal descriptor, where the exponent fits or is masked, the result is the packed accumulator. -/
theorem respond_of_legal {params : Params} (draw val : Word) {totBits expBits : Byte}
    (h : DescriptorLegal totBits.toNat expBits.toNat)
    (hp : ExpFits (stage1 val totBits expBits).newExp expBits.toNat ∨ params.subnormExpPack = .masked) :
    respond params draw val totBits expBits = .result (packed val totBits expBits) := by
  rw [respond_eq, checkDescriptor_of_legal h]
  exact if_pos hp

end Sys2Proof.Machine
end

