-- ==== Sys2Proof/Laws/PerInstr.lean ====
section
/-! SUPPORT. What holds of every instruction as syntax, one lemma per constructor. -/

namespace Sys2Proof.Laws

/-- The request word of an instruction is expBits, totBits and val from the top, and only ENCODE has one
(30_encoding.md R66, R68). -/
def Selection.Statement : Instr → Prop
  | .encode val totBits expBits =>
      encode (.encode val totBits expBits) = some (expBits ++ totBits ++ val) ∧ Instr.WellFormed (.encode val totBits expBits)
  | i => encode i = none

theorem Selection.encode (val : Word) (totBits expBits : Byte) :
    Selection.Statement (.encode val totBits expBits) := ⟨rfl, rfl⟩
theorem Selection.getbit (pos : Nat) (word : Word) : Selection.Statement (.getbit pos word) := rfl
theorem Selection.getbitfld (pos width : Nat) (word : Word) :
    Selection.Statement (.getbitfld pos width word) := rfl
theorem Selection.setbit (pos : Nat) (value : BitVec 1) (word : Word) :
    Selection.Statement (.setbit pos value word) := rfl
theorem Selection.setbitfld (pos width : Nat) (value : Int) (word : Word) :
    Selection.Statement (.setbitfld pos width value word) := rfl
theorem Selection.rebias (e : BitVec 11) (f : BitVec 52) (expBits fracBits biasX : Nat) :
    Selection.Statement (.rebias e f expBits fracBits biasX) := rfl
theorem Selection.adapt (fw : BitVec 52) (fracBits : Nat) (isNan : Bool) :
    Selection.Statement (.adapt fw fracBits isNan) := rfl

end Sys2Proof.Laws
end

