-- ==== Sys2Proof/Tests/Slice0.lean ====
section
/-! SUPPORT. Tests: ill-formed operands, decoding, one or two small steps per operation with the values of
spec/95_test_vectors.md, and for every statement with hypotheses a witness that meets them. -/

namespace Sys2Proof.Tests

open Sys2Proof.Machine Sys2Proof.Spec

/-- What a sub-function has put out. -/
def subOf : Host.Outcome State Fault Refusal → SubResult
  | .next t => t.sub
  | .fault _ => .idle
  | .refused _ => .idle

/-- The responses the run has had. -/
def responsesOf : Host.Outcome State Fault Refusal → List Response
  | .next t => t.responses
  | .fault _ => []
  | .refused _ => []

/-- The first pipeline stage. -/
def firstStage : Host.Outcome State Fault Refusal → Option Response
  | .next t => t.pipe.head?.join
  | .fault _ => none
  | .refused _ => none

/-- A state after reset of the given LATENCY with P_SUBNORM_EXP_PACK and P_BITRANGE. -/
def stateOf (latency : Nat) (pack : SubnormExpPack) (mode : BitRange) : State :=
  State.resetWith latency ⟨pack, mode⟩

/-- One cycle of the host: a request, reset, or nothing. -/
def request (val : Word) (totBits expBits : Byte) : Inputs := ⟨val, totBits, expBits, true, false⟩
def resetCycle : Inputs := ⟨0, 0, 0, false, true⟩
def idleCycle : Inputs := ⟨0, 0, 0, false, false⟩

/-- A state of the given LATENCY whose host is about to present the given cycles. -/
def before (latency : Nat) (host : List Inputs) : State :=
  { stateOf latency .masked .fault with host := host }

/-! ## Well-formedness: an ill-formed term for each check (30_encoding.md R71) -/

theorem test_wf_getbit : ¬ (Instr.getbit 64 0).WellFormed := by decide
theorem test_wf_getbitfld : ¬ (Instr.getbitfld 60 8 0).WellFormed := by decide
theorem test_wf_setbit : ¬ (Instr.setbit 64 1 0).WellFormed := by decide
theorem test_wf_setbitfld_range : ¬ (Instr.setbitfld 60 5 1 0).WellFormed := by decide
theorem test_wf_setbitfld_value : ¬ (Instr.setbitfld 3 4 (-1) 0).WellFormed := by decide
theorem test_wf_rebias_expBits : ¬ (Instr.rebias 0 0 0 3 0).WellFormed := by decide
theorem test_wf_rebias_fracBits : ¬ (Instr.rebias 0 0 4 0 7).WellFormed := by decide
theorem test_wf_rebias_totBits : ¬ (Instr.rebias 0 0 4 60 7).WellFormed := by decide
theorem test_wf_rebias_biasX : ¬ (Instr.rebias 0 0 4 3 8).WellFormed := by decide
theorem test_wf_adapt_narrow : ¬ (Instr.adapt 0 0 false).WellFormed := by decide
theorem test_wf_adapt_wide : ¬ (Instr.adapt 0 63 true).WellFormed := by decide
theorem test_wf_accepts : (Instr.rebias 0 0 4 3 7).WellFormed ∧ (Instr.adapt 0 62 true).WellFormed ∧
    (Instr.getbitfld 64 0 0).WellFormed ∧ (Instr.setbitfld 0 64 1 0).WellFormed := by decide

/-! ## Decoding, from words written out bit by bit from 30_encoding.md R66 -/

/-- `ENCODE 1.25, 32, 8` (L1.15): expBits 00001000, totBits 00100000, then the sign, exponent and fraction of 1.25. -/
theorem test_decode_bits :
    decode (0b00001000_00100000_0_01111111111_0100000000000000000000000000000000000000000000000000#80)
      = .ok (.encode 0x3FF4000000000000 32 8) := by decide

/-- `ENCODE -0.0, 3, 1` (L1.4). -/
theorem test_decode_bits_negative_zero :
    decode (0b00000001_00000011_1_00000000000_0000000000000000000000000000000000000000000000000000#80)
      = .ok (.encode 0x8000000000000000 3 1) := by decide

/-- A word of another length is no request (R72). -/
theorem test_decode_other_length : decode (0 : BitVec 64) = .error (.notOneRequestWord 64) := by decide

/-- The table's numbering: bit 0 is REQ[0], and the bits not given are 0. -/
theorem test_decodeTableWord :
    decodeTableWord 80 0x3E403FF0000000000000 = some (.encode 0x3FF0000000000000 64 62) ∧
    decodeTableWord 72 0x3E403FF0000000000000 = some (.encode 0x3FF0000000000000 64 0) := by decide

/-- The internal sub-functions have no word (R68). -/
theorem test_encode_internal : encode (.getbit 0 0) = none ∧ encode (.adapt 0 1 false) = none := by decide

/-- A request placed after reset is what the next step runs: `ENCODE 1.0, 10, 5` (L2.E49). -/
theorem test_withFetchWord :
    responsesOf (step (State.reset.withFetchWord 80 0x050A3FF0000000000000)) = [.result 0xF0] := by decide

/-! ## One or two steps per operation -/

/-- L2.B4, and L2.B6 with P_BITRANGE = `fault`. -/
theorem test_getbit : subOf (exec (.getbit 56 0x0123456789ABCDEF) State.reset) = .bit 1 := by decide
theorem test_getbit_out_of_range :
    subOf (exec (.getbit 64 0x0123456789ABCDEF) State.reset) = .raised (.invalidBitRange 64 1) := by decide

/-- L2.B12, and L2.B14 under `masked`. -/
theorem test_getbitfld : subOf (exec (.getbitfld 52 11 0xC00921FB54442D18) State.reset) = .field 0x400 := by decide
theorem test_getbitfld_masked :
    subOf (exec (.getbitfld 60 8 0x0123456789ABCDEF) (stateOf 0 .masked .masked)) = .field 0 := by decide

/-- L2.B19, and L2.B17: the bit is already 0. -/
theorem test_setbit : subOf (exec (.setbit 63 0 0xFFFFFFFFFFFFFFFF) State.reset) = .word 0x7FFFFFFFFFFFFFFF := by decide
theorem test_setbit_same : subOf (exec (.setbit 4 0 0x0123456789ABCDEF) State.reset) = .word 0x0123456789ABCDEF := by decide

/-- L2.B22: a value that does not fit; and L2.B27 under `masked`. -/
theorem test_setbitfld_overwide : subOf (exec (.setbitfld 3 4 0x1F 0) State.reset) = .word 0x78 := by decide
theorem test_setbitfld_masked :
    subOf (exec (.setbitfld 60 5 1 0x0123456789ABCDEF) (stateOf 0 .masked .masked)) = .word 0x1123456789ABCDEF := by decide

/-- L2.R15: `ne0 = −fracBits` is case 3c; and L2.R10: `ne0 = 2^expBits` overflows. -/
theorem test_rebias_subnormal :
    subOf (exec (.rebias 1013 0 4 3 7) State.reset) = .rebias 0 0x1000000000000 false := by decide
theorem test_rebias_overflow : subOf (exec (.rebias 1032 0 4 3 7) State.reset) = .rebias 15 0 false := by decide

/-- L2.A8: truncation, not rounding; and L2.A6: extension by 10. -/
theorem test_adapt_truncates : subOf (exec (.adapt 0x7FFFFFFFFFFFF 1 false) State.reset) = .frac 0 := by decide
theorem test_adapt_extends :
    subOf (exec (.adapt 0xFFFFFFFFFFFFF 62 false) State.reset) = .frac 0x3FFFFFFFFFFFFC00 := by decide

/-- L2.E30: a negative subnormal, masked; and L2.E11: a NaN pattern from 384.0. -/
theorem test_encode_masked_subnormal :
    responsesOf (exec (.encode 0x8000000000000001 10 5) State.reset) = [.result 0x310] := by decide
theorem test_encode_largest_exponent :
    responsesOf (exec (.encode 0x4078000000000000 8 4) State.reset) = [.result 0x7C] := by decide

/-- L2.E7: both halves illegal is a totBits violation, and the run keeps the fault. -/
theorem test_encode_illegal :
    responsesOf (exec (.encode 0x3FF0000000000000 0 0) State.reset)
      = [.fault (.preconditionViolation .totBits 0 0)] := by decide

/-- P4 (LATENCY = 2): the request enters the first stage and has no response yet. -/
theorem test_pipeline_accepts :
    firstStage (step (before 2 [request 0x3FE0000000000000 8 4])) = some (.result 0x30) ∧
    responsesOf (step (before 2 [request 0x3FE0000000000000 8 4])) = [] := by decide

/-! ## Request lines (30_encoding.md R74) -/

/-- Halfway between `2^53` and the next double, which rounds to even; and 0.1, which rounds up. -/
theorem test_f64 :
    f64 ⟨true, 9007199254740993, 0⟩ = 0xC340000000000000 ∧ f64 ⟨false, 1, -1⟩ = 0x3FB999999999999A := by decide

theorem test_assemble_rejects :
    assembleLine "ENCODE 0x123, 8, 4".toList = .error .badValue ∧
    assembleLine "GETBIT 0, 1".toList = .error .notARequest := by decide

/-! ## Witnesses: every statement's hypotheses can be met -/

theorem witness_DecodeAndEncodeAgree :
    encode (.encode 0x8000000000000000 64 62) = some 0x3E408000000000000000 ∧ 64 ≠ 80 := by decide

theorem witness_GetbitReturnsTheBit :
    63 ≤ 63 ∧ 64 ≤ 64 ∧ (stateOf 0 .masked .fault).params.bitRange = .fault ∧
    (stateOf 0 .masked .masked).params.bitRange = .masked := by decide

theorem witness_GetbitfldReturnsTheField :
    52 + 12 ≤ 64 ∧ 64 < 52 + 13 ∧ 64 + 0 ≤ 64 ∧ (stateOf 0 .masked .fault).params.bitRange = .fault ∧
    (stateOf 0 .masked .masked).params.bitRange = .masked := by decide

theorem witness_SetbitWritesOneBit :
    63 ≤ 63 ∧ 64 ≤ 64 ∧ (stateOf 3 .any .fault).params.bitRange = .fault ∧
    (stateOf 3 .any .masked).params.bitRange = .masked := by decide

theorem witness_SetbitfldWritesOnlyItsField :
    0 + 64 ≤ 64 ∧ 64 < 60 + 5 ∧ (stateOf 3 .any .fault).params.bitRange = .fault ∧
    (stateOf 3 .any .masked).params.bitRange = .masked := by decide

/-- The least and the greatest descriptors: for the statements on zero, subnormal, infinity and NaN inputs. -/
theorem witness_ZeroGivesSignedZero :
    RebiasOperandsLegal 1 1 0 ∧ RebiasOperandsLegal 62 1 (2 ^ 61 - 1) ∧ DescriptorLegal 3 1 ∧ DescriptorLegal 64 62 := by
  decide
theorem witness_SubnormalInputIsNotClamped :
    RebiasOperandsLegal 10 53 511 ∧ RebiasOperandsLegal 11 52 1023 ∧ (1 : BitVec 52) ≠ 0 ∧ 1 ≤ 11 := by decide
theorem witness_InfinityGivesInfinity :
    RebiasOperandsLegal 1 62 0 ∧ DescriptorLegal 64 1 ∧ DescriptorLegal 64 62 := by decide
theorem witness_NanIsCanonical :
    RebiasOperandsLegal 8 23 127 ∧ (0x8000000000000 : BitVec 52) ≠ 0 ∧ DescriptorLegal 32 8 ∧
    exponent 0xFFF0000000000001 = 2047 ∧ fraction 0xFFF0000000000001 ≠ 0 := by decide
/-- `ne0 = 16 = 2^expBits` at (8, 4), the least that overflows. -/
theorem witness_OverflowSaturatesToInfinity :
    RebiasOperandsLegal 4 3 7 ∧ 1 ≤ (1032 : BitVec 11).toNat ∧ (1032 : BitVec 11).toNat ≤ 2046 ∧
    (2 : Int) ^ 4 ≤ ((1032 : BitVec 11).toNat : Int) - 1023 + (7 : Nat) ∧
    DescriptorLegal 8 4 ∧ Normal 0xC080000000000000 ∧ (2 : Int) ^ 4 ≤ ne0 4 (exponent 0xC080000000000000) := by decide
/-- `ne0 = −4 < −3` at (8, 4), the greatest that flushes. -/
theorem witness_UnderflowFlushesToSignedZero :
    RebiasOperandsLegal 4 3 7 ∧ 1 ≤ (1012 : BitVec 11).toNat ∧ (1012 : BitVec 11).toNat ≤ 2046 ∧
    ((1012 : BitVec 11).toNat : Int) - 1023 + (7 : Nat) < -((3 : Nat) : Int) ∧
    DescriptorLegal 8 4 ∧ Normal 0xBF40000000000000 ∧ ne0 4 (exponent 0xBF40000000000000) < -(fracBits 8 4 : Int) := by
  decide
/-- `ne0 = −3` and `ne0 = 0` at (8, 4), the two ends of case 3c. -/
theorem witness_TargetSubnormalShiftsTheSignificand :
    RebiasOperandsLegal 4 3 7 ∧ -((3 : Nat) : Int) ≤ ((1013 : BitVec 11).toNat : Int) - 1023 + (7 : Nat) ∧
    ((1013 : BitVec 11).toNat : Int) - 1023 + (7 : Nat) ≤ 0 ∧ ((1016 : BitVec 11).toNat : Int) - 1023 + (7 : Nat) ≤ 0 ∧
    -((3 : Nat) : Int) ≤ ((1016 : BitVec 11).toNat : Int) - 1023 + (7 : Nat) := by decide
/-- `ne0 = 1` and `ne0 = 15` at (8, 4), the two ends of case 3d. -/
theorem witness_InRangeExponentPassesThrough :
    RebiasOperandsLegal 4 3 7 ∧ 1 ≤ ((1017 : BitVec 11).toNat : Int) - 1023 + (7 : Nat) ∧
    ((1017 : BitVec 11).toNat : Int) - 1023 + (7 : Nat) ≤ 2 ^ 4 - 1 ∧
    1 ≤ ((1031 : BitVec 11).toNat : Int) - 1023 + (7 : Nat) ∧
    ((1031 : BitVec 11).toNat : Int) - 1023 + (7 : Nat) ≤ 2 ^ 4 - 1 := by decide
/-- The clauses of RebiasedExponentRange meet at expBits = 10 and 11. -/
theorem witness_RebiasedExponentRange :
    RebiasOperandsLegal 10 53 511 ∧ ((0 : BitVec 11) = 0 ∧ (1 : BitVec 52) ≠ 0 ∧ 10 ≤ 10) ∧
    RebiasOperandsLegal 11 52 1023 ∧ ¬ ((0 : BitVec 11) = 0 ∧ (1 : BitVec 52) ≠ 0 ∧ 11 ≤ 10) := by decide
theorem witness_OperandsOffDomainGiveFreeValues :
    ¬ RebiasOperandsLegal 0 1 0 ∧ ¬ RebiasOperandsLegal 4 3 8 ∧ ¬ RebiasOperandsLegal 62 2 (2 ^ 61 - 1) ∧
    (0 = 0 ∨ 63 ≤ 0) ∧ (63 = 0 ∨ 63 ≤ 63) := by decide
/-- The clauses of ADAPT meet at fracBits = 51 and 52. -/
theorem witness_AdaptTruncatesNarrowFractions : 1 ≤ 1 ∧ 1 < 52 ∧ 1 ≤ 51 ∧ 51 < 52 := by decide
theorem witness_AdaptExtendsWideFractions : 52 ≤ 52 ∧ 52 ≤ 62 ∧ 62 ≤ 62 := by decide
theorem witness_AdaptSetsNanFractionDirectly : 1 ≤ 1 ∧ 1 ≤ 62 ∧ 62 ≤ 62 := by decide
theorem witness_AdaptedFractionFits : 1 ≤ 52 ∧ 52 ≤ 62 := by decide
/-- fracBits 51, 53 and 3, the last at `ne0 = −fracBits`. -/
theorem witness_SubnormalStagesCompose :
    (DescriptorLegal 60 8 ∧ Normal 0x3800000000000000 ∧ -(fracBits 60 8 : Int) ≤ ne0 8 (exponent 0x3800000000000000) ∧
      ne0 8 (exponent 0x3800000000000000) ≤ 0 ∧ fracBits 60 8 < 52) ∧
    (DescriptorLegal 64 10 ∧ Normal 0x1CC0000000000000 ∧ -(fracBits 64 10 : Int) ≤ ne0 10 (exponent 0x1CC0000000000000) ∧
      ne0 10 (exponent 0x1CC0000000000000) ≤ 0 ∧ 52 < fracBits 64 10) ∧
    (DescriptorLegal 8 4 ∧ Normal 0x3F50000000000000 ∧ ne0 4 (exponent 0x3F50000000000000) = -(fracBits 8 4 : Int)) := by
  decide
theorem witness_EncodeFollowsTheCaseTable :
    DescriptorLegal 8 4 ∧ (stateOf 2 .masked .fault).params.subnormExpPack = .masked ∧
    ¬ Subnormal 0x3FF0000000000000 ∧ DescriptorLegal 64 11 ∧ 11 ≤ 11 := by decide
theorem witness_AnyPackingDrawsTheWholeResult :
    DescriptorLegal 64 10 ∧ (stateOf 0 .any .fault).params.subnormExpPack = .any ∧ Subnormal 0x800FFFFFFFFFFFFF ∧
    10 ≤ 10 := by decide
/-- The ends of the legal range from both sides. -/
theorem witness_IllegalDescriptorFaults :
    ¬ DescriptorLegal 2 1 ∧ ¬ DescriptorLegal 65 1 ∧ ¬ DescriptorLegal 8 0 ∧ ¬ DescriptorLegal 8 7 ∧
    DescriptorLegal 3 1 ∧ DescriptorLegal 64 62 ∧ DescriptorLegal 8 6 := by decide
theorem witness_BitRangeNeverReachesEncode :
    (stateOf 1 .any .masked).params.subnormExpPack = .any := by decide
theorem witness_BitsAboveTheWindowAreZero :
    DescriptorLegal 64 62 ∧ ¬ Subnormal 0xFFF0000000000001 ∧ 64 ≤ 64 := by decide
theorem witness_SignPassesThrough :
    DescriptorLegal 3 1 ∧ Subnormal 0x8000000000000001 ∧
    (stateOf 0 .masked .fault).params.subnormExpPack = .masked := by decide
theorem witness_ResponseDependsOnTheRequestAlone :
    (stateOf 5 .masked .masked).params.subnormExpPack = .masked := by decide
theorem witness_Binary64ShapedFormatIsIdentity :
    (¬ Subnormal 0x7FF0000000000000 ∧ ¬ (exponent 0x7FF0000000000000 = 2047 ∧ fraction 0x7FF0000000000000 ≠ 0)) ∧
    Subnormal 1 ∧ (exponent 0xFFF0000000000001 = 2047 ∧ fraction 0xFFF0000000000001 ≠ 0) := by decide
/-- 240.0 at (8, 4): `ne0 = 14 = 2^expBits − 2`. -/
theorem witness_ExactNormalsRoundTrip :
    DescriptorLegal 8 4 ∧ Normal 0x406E000000000000 ∧ 1 ≤ ne0 4 (exponent 0x406E000000000000) ∧
    ne0 4 (exponent 0x406E000000000000) ≤ 2 ^ 4 - 2 ∧ fraction 0x406E000000000000 % 2 ^ (52 - fracBits 8 4) = 0 := by
  decide
/-- 248.0 at (8, 4), which is truncated. -/
theorem witness_NormalsTruncateTowardZero :
    DescriptorLegal 8 4 ∧ Normal 0x406F000000000000 ∧ 1 ≤ ne0 4 (exponent 0x406F000000000000) ∧
    ne0 4 (exponent 0x406F000000000000) ≤ 2 ^ 4 - 2 := by decide
theorem witness_LargestExponentReadsAsInfinityOrNan :
    DescriptorLegal 8 4 ∧ Normal 0x4078000000000000 ∧ ne0 4 (exponent 0x4078000000000000) = 2 ^ 4 - 1 := by decide
/-- 2^-9 below 256.0 at (8, 4). -/
theorem witness_EncodingIsMonotone :
    DescriptorLegal 8 4 ∧ Normal 0x3F60000000000000 ∧ Normal 0x4070000000000000 ∧ sign 0x4070000000000000 = 0 ∧
    (0x3F60000000000000 : Word).toNat ≤ (0x4070000000000000 : Word).toNat ∧
    ne0 4 (exponent 0x4070000000000000) ≤ 2 ^ 4 - 1 := by decide
theorem witness_EncodeFrame : ∃ t, exec (.encode 0x3FF0000000000000 8 4) (stateOf 2 .masked .fault) = .next t := ⟨_, rfl⟩
/-- A well-formed operand, and an ill-formed one that records a fault. -/
theorem witness_SubFunctionFrame :
    ((∀ val totBits expBits, Instr.getbit 3 0 ≠ .encode val totBits expBits) ∧
      (∃ t, exec (.getbit 3 0) State.reset = .next t) ∧ (Instr.getbit 3 0).WellFormed) ∧
    ((∀ val totBits expBits, Instr.setbit 64 1 0 ≠ .encode val totBits expBits) ∧
      (∃ t, exec (.setbit 64 1 0) State.reset = .next t ∧ t.fault = some (.invalidBitRange 64 1)) ∧
      ¬ (Instr.setbit 64 1 0).WellFormed) :=
  ⟨⟨by simp, ⟨_, rfl⟩, by decide⟩, ⟨by simp, ⟨_, rfl, rfl⟩, by decide⟩⟩
/-- One witness for each of the three kinds of cycle, and for an empty queue at LATENCY 0 and 2. -/
theorem witness_StepRunsTheDecodedRequest :
    ((before 0 [request 1 8 4]).host = [request 1 8 4] ∧ (before 0 [request 1 8 4]).latency = 0 ∧
      decode (request 1 8 4).req = .ok (.encode 1 8 4)) ∧
    ((before 1 [resetCycle]).latency ≠ 0 ∧ resetCycle.rst_i = true) ∧
    ((before 1 [idleCycle]).latency ≠ 0 ∧ idleCycle.rst_i = false ∧ idleCycle.in_valid_i = false) ∧
    ((before 0 []).host = [] ∧ (before 0 []).latency = 0) ∧ ((before 2 []).host = [] ∧ (before 2 []).latency ≠ 0) := by
  decide
theorem witness_PlacedRequestRunsNext : decode (0x08203FF4000000000000 : ReqWord) = .ok (.encode 0x3FF4000000000000 32 8) := by
  decide
theorem witness_CombinationalAnswersAtOnce : (stateOf 0 .any .fault).latency = 0 := by decide
theorem witness_ResponseComesAfterLatency :
    (before 3 [request 1 8 4, idleCycle, idleCycle, resetCycle]).latency ≠ 0 ∧ (request 1 8 4).rst_i = false ∧
    (request 1 8 4).in_valid_i = true ∧
    ∀ j ∈ [idleCycle, idleCycle, resetCycle].take ((before 3 []).latency - 1), j.rst_i = false := by decide
theorem witness_ResponsesLeaveInOrder :
    (∃ t, step (before 2 [request 1 8 4]) = .next t) ∧ resetNext (before 2 [request 1 8 4]) = false :=
  ⟨⟨_, rfl⟩, by decide⟩
theorem witness_ResetClearsEveryValidBit :
    (∃ t, step (before 2 [resetCycle]) = .next t) ∧ resetNext (before 2 [resetCycle]) = true :=
  ⟨⟨_, rfl⟩, by decide⟩
theorem witness_RecordedFaultIsNeverCleared :
    ∃ t, step { before 1 [request 1 8 4] with fault := some (.invalidBitRange 64 1) } = .next t := ⟨_, rfl⟩
theorem witness_ParametersNeverChange : ∃ t, step (before 0 [request 1 8 4]) = .next t := ⟨_, rfl⟩
theorem witness_ResponsesDoNotDependOnLatency :
    (stateOf 0 .masked .fault).params.subnormExpPack = .masked ∧
    ∀ i ∈ [request 1 8 4, request 2 8 9], i.rst_i = false ∧ i.in_valid_i = true := by decide
/-- A combinational machine after reset meets State.Inv: its outputs show the response to +0.0 at (3, 1). -/
theorem witness_StepKeepsTheInvariant_combinational :
    (before 0 [request 1 8 4]).Inv ∧ ∃ t, step (before 0 [request 1 8 4]) = .next t := by
  refine ⟨⟨?_, fun _ => ⟨0, ?_⟩, rfl, ?_⟩, _, rfl⟩
  · intro last h
    exact absurd h (by simp [before, stateOf, State.resetWith])
  · have h : ∀ draw, respond ⟨.masked, .fault⟩ draw 0 3 1 = .result 0 := fun _ => rfl
    exact (h _).symm ▸ ⟨rfl, rfl⟩
  · simp [before, stateOf, State.resetWith]

/-- A registered machine after reset meets State.Inv; and the step from it answers. -/
theorem witness_StepKeepsTheInvariant : (before 1 [request 1 8 4]).Inv ∧ ∃ t, step (before 1 [request 1 8 4]) = .next t := by
  refine ⟨⟨?_, ?_, rfl, ?_⟩, _, rfl⟩
  · intro last h
    obtain rfl : last = none := by simpa [before, stateOf, State.resetWith] using h.symm
    exact ⟨rfl, by simp⟩
  · intro h
    exact absurd h (by decide)
  · simp [before, stateOf, State.resetWith]

end Sys2Proof.Tests
end

section
/-! The request word's fields and its numeric value (spec/30_encoding.md R66). -/

namespace Sys2Proof

open Sys2Proof.Machine

/-- The fields above `val` are those of the two descriptor bytes appended. -/
theorem extractLsb'_packReq_of_le (val : Word) (totBits expBits : Byte) {start len : Nat} (h : 64 ≤ start) :
    (packReq val totBits expBits).extractLsb' start len =
      (expBits ++ totBits).extractLsb' (start - 64) len :=
  BitVec.extractLsb'_append_eq_of_le h

@[simp] theorem reqVal_packReq (val : Word) (totBits expBits : Byte) :
    reqVal (packReq val totBits expBits) = val :=
  BitVec.extractLsb'_append_eq_right

@[simp] theorem reqTotBits_packReq (val : Word) (totBits expBits : Byte) :
    reqTotBits (packReq val totBits expBits) = totBits :=
  (extractLsb'_packReq_of_le val totBits expBits (by decide)).trans BitVec.extractLsb'_append_eq_right

@[simp] theorem reqExpBits_packReq (val : Word) (totBits expBits : Byte) :
    reqExpBits (packReq val totBits expBits) = expBits :=
  (extractLsb'_packReq_of_le val totBits expBits (by decide)).trans BitVec.extractLsb'_append_eq_left

/-- Appending puts the first word above the second, in place value. -/
theorem toNat_append_eq_add {m n : Nat} (x : BitVec m) (y : BitVec n) :
    (x ++ y).toNat = x.toNat * 2 ^ n + y.toNat := by
  rw [BitVec.toNat_append, ← Nat.shiftLeft_add_eq_or_of_lt y.isLt, Nat.shiftLeft_eq]

theorem packReq_toNat (val : Word) (totBits expBits : Byte) :
    (packReq val totBits expBits).toNat =
      expBits.toNat * 2 ^ 72 + totBits.toNat * 2 ^ 64 + val.toNat := by
  have h : (packReq val totBits expBits).toNat =
      (expBits.toNat * 2 ^ 8 + totBits.toNat) * 2 ^ 64 + val.toNat :=
    (toNat_append_eq_add (expBits ++ totBits) val).trans (by rw [toNat_append_eq_add])
  rw [h]; ring

/-- The ports' request word is the packing of their values (R66). -/
theorem Machine.Inputs.req_eq_packReq (i : Inputs) :
    i.req = packReq i.val_i i.tot_bits_i i.exp_bits_i := rfl

/-- Settles O2: the ports' word is the packing of their values, whose fields read back by the library's rules for slices of
an append, and whose number is the place value of an append. -/
theorem requestWordPacksThePorts : Obligations.RequestWordPacksThePorts := by
  refine ⟨fun i => ?_, by decide⟩
  rw [i.req_eq_packReq]
  exact ⟨reqExpBits_packReq .., reqTotBits_packReq .., reqVal_packReq .., packReq_toNat .., rfl⟩

end Sys2Proof
end

section
/-! The bit-field accessor applied directly (spec/40_bitfield.md R100 to R104): how many positions it acts on, and what it reads
and writes there. -/

namespace Sys2Proof.Machine

open Sys2Proof.Spec

/-- In range, or masked, an access acts on the positions of its range that are below 64 (R104). -/
theorem rangeWidth_of_acts {mode : BitRange} {pos width : Nat} (h : pos + width ≤ 64 ∨ mode = .masked) :
    rangeWidth mode pos width = .ok (min width (64 - pos)) := by
  rcases rangeWidth_cases mode pos width with ⟨hle, hr⟩ | ⟨hgt, rfl, -⟩ | ⟨hgt, -, hr⟩
  · rw [hr, min_eq_left (by omega)]
  · exact absurd h (by simp [hgt])
  · rw [hr, min_eq_right (by omega)]

/-- Positions from 64 up read 0, so an access cut off there reads the same (R104). -/
theorem readBits_min (pos width : Nat) (word : Word) :
    readBits pos (min width (64 - pos)) word = readBits pos width word := by
  refine BitVec.eq_of_getLsbD_eq fun j _ => ?_
  rw [readBits_getLsbD, readBits_getLsbD]
  by_cases hj : pos + j < 64
  · simp [show j < 64 - pos by omega]
  · simp [BitVec.getLsbD_of_ge word (pos + j) (by omega)]

theorem readBits_lt (pos width : Nat) (word : Word) : (readBits pos width word).toNat < 2 ^ width := by
  rw [readBits_toNat]
  exact Nat.mod_lt _ (by positivity)

@[simp] theorem readBits_width_zero (pos : Nat) (word : Word) : readBits pos 0 word = 0 := by
  simp [readBits, Nat.mod_one]

@[simp] theorem readBits_all (word : Word) : readBits 0 64 word = word := by
  simp [readBits, Nat.mod_eq_of_lt word.isLt]

/-- The single bit GETBIT keeps of the field it reads (R100). -/
theorem readBits_one_setWidth (pos : Nat) (word : Word) :
    (readBits pos 1 word).setWidth 1 = BitVec.ofBool (word.getLsbD pos) := by
  refine BitVec.eq_of_getLsbD_eq fun j hj => ?_
  obtain rfl : j = 0 := by omega
  rw [BitVec.getLsbD_setWidth, readBits_getLsbD]
  simp

/-- The low bits of an integer are those of its two's complement form (00_scope.md R9): taking a multiple of `2 ^ width` away
leaves the parity of `value / 2 ^ k` as it was. -/
theorem lowBits_testBit {k width : Nat} (h : k < width) (value : Int) :
    (value % 2 ^ width).toNat.testBit k = decide (value / 2 ^ k % 2 = 1) := by
  obtain ⟨m, rfl⟩ : ∃ m, width = k + 1 + m := ⟨width - (k + 1), by omega⟩
  have hmultiple : value % 2 ^ (k + 1 + m) = value + 2 ^ k * (2 * (-(2 ^ m * (value / 2 ^ (k + 1 + m))))) := by
    rw [Int.emod_def, pow_add, pow_succ]; ring
  have hparity : value % 2 ^ (k + 1 + m) / 2 ^ k % 2 = value / 2 ^ k % 2 := by
    rw [hmultiple, Int.add_mul_ediv_left _ _ (by positivity), Int.add_mul_emod_self_left]
  have hcast : ((value % 2 ^ (k + 1 + m)).toNat : Int) = value % 2 ^ (k + 1 + m) :=
    Int.toNat_of_nonneg (Int.emod_nonneg _ (by positivity))
  rw [Nat.testBit_eq_decide_div_mod_eq, ← hparity, ← hcast]
  norm_cast

@[simp] theorem writeBits_width_zero (pos : Nat) (value : Int) (word : Word) : writeBits pos 0 value word = word := by
  simp [writeBits, Nat.mod_one]

@[simp] theorem writeBits_all (value : Int) (word : Word) : writeBits 0 64 value word = BitVec.ofInt 64 value := by
  refine BitVec.eq_of_toNat_eq ?_
  rw [writeBits_toNat (by decide), BitVec.toNat_ofInt, Nat.div_eq_of_lt word.isLt]
  simp [Nat.mod_one]

/-- A write cut off at position 64 leaves the value's bits in the range and the word's outside it (R103, R104). From `pos = 64`
up nothing is left to write. -/
theorem writeBits_min_getLsbD (pos width : Nat) (value : Int) (word : Word) {j : Nat} (hj : j < 64) :
    (writeBits pos (min width (64 - pos)) value word).getLsbD j =
      if pos ≤ j ∧ j < pos + width then decide (value / 2 ^ (j - pos) % 2 = 1) else word.getLsbD j := by
  by_cases hp : pos ≤ 64
  · rw [writeBits_getLsbD (by omega)]
    by_cases hin : pos ≤ j ∧ j < pos + width
    · rw [if_pos hin, if_pos (by omega), lowBits_testBit (by omega)]
    · rw [if_neg hin, if_neg (by omega)]
  · rw [Nat.sub_eq_zero_of_le (by omega), Nat.min_zero, writeBits_width_zero, if_neg (by omega)]

/-- The number a single bit is written as, at the one place it goes to. -/
theorem toNat_parity (value : BitVec 1) : decide ((value.toNat : Int) / 2 ^ 0 % 2 = 1) = value.getLsbD 0 := by
  revert value; decide

/-! The four accessors as one shape: the bit range decides whether there is a result, and the width it allows what it is. -/

theorem exec_getbit (pos : Nat) (word : Word) (s : State) : exec (.getbit pos word) s =
    s.finishSub ((rangeWidth s.params.bitRange pos 1).map fun w => .bit ((readBits pos w word).setWidth 1)) := by
  rw [exec, execGetbit, getBit]
  cases rangeWidth s.params.bitRange pos 1 <;> rfl

theorem exec_getbitfld (pos width : Nat) (word : Word) (s : State) : exec (.getbitfld pos width word) s =
    s.finishSub ((rangeWidth s.params.bitRange pos width).map fun w => .field (readBits pos w word)) := by
  rw [exec, execGetbitfld, getBitFld]
  cases rangeWidth s.params.bitRange pos width <;> rfl

theorem exec_setbit (pos : Nat) (value : BitVec 1) (word : Word) (s : State) : exec (.setbit pos value word) s =
    s.finishSub ((rangeWidth s.params.bitRange pos 1).map fun w => .word (writeBits pos w value.toNat word)) := by
  rw [exec, execSetbit, setBit]
  cases rangeWidth s.params.bitRange pos 1 <;> rfl

theorem exec_setbitfld (pos width : Nat) (value : Int) (word : Word) (s : State) :
    exec (.setbitfld pos width value word) s =
      s.finishSub ((rangeWidth s.params.bitRange pos width).map fun w => .word (writeBits pos w value word)) := by
  rw [exec, execSetbitfld, setBitFld]
  cases rangeWidth s.params.bitRange pos width <;> rfl

section
variable {i : Instr} {s : State} {pos width : Nat} {put : Nat → SubResult}

/-- An accessor that acts puts out what it makes of the positions below 64 (R104). -/
theorem exec_of_acts (hi : exec i s = s.finishSub ((rangeWidth s.params.bitRange pos width).map put))
    (h : pos + width ≤ 64 ∨ s.params.bitRange = .masked) :
    exec i s = .next { s with sub := put (min width (64 - pos)) } := by
  rw [hi, rangeWidth_of_acts h]; rfl

/-- An accessor out of range raises InvalidBitRange under P_BITRANGE = `fault` (R104, 60_exceptions.md R203). -/
theorem raisesBitRange_of_fault (hi : exec i s = s.finishSub ((rangeWidth s.params.bitRange pos width).map put))
    (h : 64 < pos + width) (hf : s.params.bitRange = .fault) : RaisesBitRange i pos width s := by
  have hr : rangeWidth s.params.bitRange pos width = .error (.invalidBitRange pos width) := by
    simp [rangeWidth, hf, show ¬ pos + width ≤ 64 by omega]
  rw [hr] at hi
  exact ⟨_, hi, rfl, fun hnone => by simp [hnone], rfl⟩

end

end Sys2Proof.Machine
end

section
/-! The obligations on the four accessors (spec/40_bitfield.md R100 to R104). -/

namespace Sys2Proof

open Sys2Proof.Machine Sys2Proof.Spec

theorem exec_getbit_of_acts {pos : Nat} {s : State} (word : Word) (h : pos + 1 ≤ 64 ∨ s.params.bitRange = .masked) :
    exec (.getbit pos word) s = .next { s with sub := .bit (BitVec.ofBool (word.getLsbD pos)) } := by
  rw [exec_of_acts (exec_getbit ..) h, readBits_min, readBits_one_setWidth]

/-- Settles O7: an acting GETBIT gives the bit of the word, which is 0 from position 64 up. -/
theorem getbitReturnsTheBit : Obligations.GetbitReturnsTheBit := by
  refine ⟨fun pos word s => ⟨fun h => ?_, fun h hf => ?_, fun h hm => ?_⟩, fun s => ⟨rfl, rfl⟩⟩
  · exact exec_getbit_of_acts word (.inl (by omega))
  · exact raisesBitRange_of_fault (exec_getbit ..) (by omega) hf
  · rw [exec_getbit_of_acts word (.inr hm), BitVec.getLsbD_of_ge word pos h]; rfl

theorem exec_getbitfld_of_acts {pos width : Nat} {s : State} (word : Word)
    (h : pos + width ≤ 64 ∨ s.params.bitRange = .masked) :
    exec (.getbitfld pos width word) s = .next { s with sub := .field (readBits pos width word) } := by
  rw [exec_of_acts (exec_getbitfld ..) h, readBits_min]

/-- Settles O8: an acting GETBITFLD gives `readBits`, whose bits and bound are known. -/
theorem getbitfldReturnsTheField : Obligations.GetbitfldReturnsTheField := by
  refine ⟨fun pos width word s => ⟨fun h => ?_, fun h hf => ?_⟩, fun pos word s => ⟨fun h => ?_, ?_⟩, fun s => ⟨rfl, rfl⟩⟩
  · exact ⟨_, exec_getbitfld_of_acts word h, readBits_lt .., readBits_getLsbD pos width word⟩
  · exact raisesBitRange_of_fault (exec_getbitfld ..) h hf
  · rw [exec_getbitfld_of_acts word (.inl (by omega)), readBits_width_zero]
  · rw [exec_getbitfld_of_acts word (.inl (by decide)), readBits_all]

/-- Settles O9: SETBIT is a write of width 1, so `pos` is the one position in its range. -/
theorem setbitWritesOneBit : Obligations.SetbitWritesOneBit := by
  refine ⟨fun pos value word s => ⟨fun h => ?_, fun h hf => ?_⟩, fun s => ⟨rfl, rfl⟩⟩
  · refine ⟨_, exec_of_acts (exec_setbit ..) (h.imp_left Nat.succ_le_succ), fun j hj => ?_⟩
    rw [writeBits_min_getLsbD _ _ _ _ hj]
    by_cases hjp : j = pos
    · subst hjp
      rw [if_pos (by omega), if_pos rfl, Nat.sub_self, toNat_parity]
    · rw [if_neg (by omega), if_neg hjp]
  · exact raisesBitRange_of_fault (exec_setbit ..) (by omega) hf

/-- Settles O10: the bits of an acting write are `writeBits_min_getLsbD`; a write of no bit and of all 64 are closed forms. -/
theorem setbitfldWritesOnlyItsField : Obligations.SetbitfldWritesOnlyItsField := by
  refine ⟨fun pos width value word s => ⟨fun h => ?_, fun h hf => ?_⟩, fun pos value word s => ⟨fun h => ?_, ?_⟩,
    fun s => ⟨rfl, rfl⟩⟩
  · exact ⟨_, exec_of_acts (exec_setbitfld ..) h, fun j hj => writeBits_min_getLsbD pos width value word hj⟩
  · exact raisesBitRange_of_fault (exec_setbitfld ..) h hf
  · rw [exec_of_acts (exec_setbitfld ..) (.inl (by omega)), Nat.zero_min, writeBits_width_zero]
  · rw [exec_of_acts (exec_setbitfld ..) (.inl (by decide)), Nat.sub_zero, min_self, writeBits_all]

end Sys2Proof
end

section
/-! What the internal sub-functions leave unchanged (spec/40_bitfield.md R105, spec/60_exceptions.md R203). -/

namespace Sys2Proof

open Sys2Proof.Machine Sys2Proof.Spec

/-- What an internal sub-function can do to the state: put out a result that is no fault; and, on operands outside its domain
only, raise InvalidBitRange or put out a free value. -/
inductive SubFunctionEffect (i : Instr) (s : State) : State → Prop
  | result (v : SubResult) (hv : ∀ f, v ≠ .raised f) : SubFunctionEffect i s { s with sub := v }
  | raised (pos width : Nat) (hi : ¬ i.WellFormed) :
      SubFunctionEffect i s
        { s.recordFault (.invalidBitRange pos width) with sub := .raised (.invalidBitRange pos width) }
  | free (v : SubResult) (hi : ¬ i.WellFormed) : SubFunctionEffect i s { s with sub := v, draws := s.draws + 1 }

theorem accessor_effect {i : Instr} {s t : State} {pos width : Nat} {put : Nat → SubResult}
    (hi : exec i s = s.finishSub ((rangeWidth s.params.bitRange pos width).map put)) (hput : ∀ w f, put w ≠ .raised f)
    (hwf : i.WellFormed → pos + width ≤ 64) (ht : exec i s = .next t) : SubFunctionEffect i s t := by
  rw [hi] at ht
  rcases rangeWidth_cases s.params.bitRange pos width with ⟨-, hr⟩ | ⟨hgt, -, hr⟩ | ⟨-, -, hr⟩ <;>
    rw [hr] at ht <;> obtain rfl := Host.Outcome.next.inj ht
  · exact .result _ (hput _)
  · exact .raised pos width fun h => by have := hwf h; omega
  · exact .result _ (hput _)

theorem rebiasOperandsLegal_of_wellFormed {e : BitVec 11} {f : BitVec 52} {expBits fracBits biasX : Nat}
    (h : (Instr.rebias e f expBits fracBits biasX).WellFormed) : RebiasOperandsLegal expBits fracBits biasX := by
  simp only [Instr.WellFormed, Instr.wellFormed, Bool.and_eq_true, decide_eq_true_eq, beq_iff_eq] at h
  obtain ⟨⟨⟨he, hf⟩, hsum⟩, hb⟩ := h
  exact ⟨by simp only [DescriptorLegal, TOT_MIN, TOT_MAX, EXP_MIN, EXP_MAX]; omega, hb⟩

theorem adaptOperandsLegal_of_wellFormed {fw : BitVec 52} {fracBits : Nat} {isNan : Bool}
    (h : (Instr.adapt fw fracBits isNan).WellFormed) : AdaptOperandsLegal fracBits := by
  simpa [Instr.WellFormed, Instr.wellFormed] using h

theorem rebias_effect {e : BitVec 11} {f : BitVec 52} {expBits fracBits biasX : Nat} {s t : State}
    (ht : exec (.rebias e f expBits fracBits biasX) s = .next t) :
    SubFunctionEffect (.rebias e f expBits fracBits biasX) s t := by
  rw [exec, execRebias] at ht
  split at ht <;> obtain rfl := Host.Outcome.next.inj ht
  · exact .result _ (by simp)
  · next hill => exact .free _ fun h => hill (rebiasOperandsLegal_of_wellFormed h)

theorem adapt_effect {fw : BitVec 52} {fracBits : Nat} {isNan : Bool} {s t : State}
    (ht : exec (.adapt fw fracBits isNan) s = .next t) : SubFunctionEffect (.adapt fw fracBits isNan) s t := by
  rw [exec, execAdapt] at ht
  split at ht <;> obtain rfl := Host.Outcome.next.inj ht
  · exact .result _ (by simp)
  · next hill => exact .free _ fun h => hill (adaptOperandsLegal_of_wellFormed h)

/-- One case a sub-function. -/
theorem subFunction_effect {i : Instr} {s t : State} (hi : ∀ val totBits expBits, i ≠ .encode val totBits expBits)
    (ht : exec i s = .next t) : SubFunctionEffect i s t := by
  cases i with
  | encode val totBits expBits => exact absurd rfl (hi val totBits expBits)
  | getbit pos word =>
    exact accessor_effect (exec_getbit ..) (by simp) (fun h => Nat.succ_le_succ (of_decide_eq_true h)) ht
  | getbitfld pos width word =>
    exact accessor_effect (exec_getbitfld ..) (by simp) of_decide_eq_true ht
  | setbit pos value word =>
    exact accessor_effect (exec_setbit ..) (by simp) (fun h => Nat.succ_le_succ (of_decide_eq_true h)) ht
  | setbitfld pos width value word =>
    exact accessor_effect (exec_setbitfld ..) (by simp) (fun h => of_decide_eq_true (Bool.and_eq_true_iff.mp h).1) ht
  | rebias e f expBits fracBits biasX => exact rebias_effect ht
  | adapt fw fracBits isNan => exact adapt_effect ht

/-- Settles O39: none of the three effects touches the other fields, a raise records its fault only where there was none, and
well-formed operands leave the first effect alone. -/
theorem subFunctionFrame : Obligations.SubFunctionFrame := by
  intro i s t hi ht
  cases subFunction_effect hi ht with
  | result v hv => exact ⟨rfl, rfl, rfl, rfl, rfl, rfl, .inl rfl, fun _ => ⟨rfl, rfl, hv⟩⟩
  | free v hill => exact ⟨rfl, rfl, rfl, rfl, rfl, rfl, .inl rfl, fun h => absurd h hill⟩
  | raised pos width hill =>
    refine ⟨rfl, rfl, rfl, rfl, rfl, rfl, ?_, fun h => absurd h hill⟩
    cases hs : s.fault with
    | none => exact .inr ⟨rfl, pos, width, by simp [hs]⟩
    | some f => exact .inl (by simp [hs])

end Sys2Proof
end

section
/-! REBIAS case by case (spec/41_exponent_rebias.md R121 to R130). -/

namespace Sys2Proof.Machine

/-- REBIAS on the operands of a legal descriptor puts out what stage 1 gives. -/
theorem exec_rebias_of_legal {e : BitVec 11} {f : BitVec 52} {expBits fracBits biasX : Nat} {newExp : Int}
    {fw : BitVec 52} {isNan : Bool} (s : State) (h : RebiasOperandsLegal expBits fracBits biasX)
    (hr : rebias e f expBits fracBits biasX = ⟨newExp, fw, isNan⟩) :
    exec (.rebias e f expBits fracBits biasX) s = .next { s with sub := .rebias newExp fw isNan } := by
  rw [exec, execRebias, if_pos h, hr]; rfl

theorem maxExpOf_cast (expBits : Nat) : (maxExpOf expBits : Int) = 2 ^ expBits - 1 := by
  rw [maxExpOf, Nat.cast_sub Nat.one_le_two_pow]; norm_cast

theorem biasOf_cast (expBits : Nat) : (biasOf expBits : Int) = 2 ^ (expBits - 1) - 1 := by
  rw [biasOf, Nat.cast_sub Nat.one_le_two_pow]; norm_cast

section
variable {e : BitVec 11} {f : BitVec 52} (expBits fracBits biasX : Nat)

theorem rebias_of_zero (he : e.toNat = 0) (hf : f = 0) : rebias e f expBits fracBits biasX = ⟨0, 0, false⟩ := by
  have hc : classify e f expBits fracBits biasX = .c1a := by rw [classify, if_pos he, if_pos hf]
  rw [rebias, hc]

theorem rebias_of_subnormal (he : e.toNat = 0) (hf : f ≠ 0) :
    rebias e f expBits fracBits biasX = ⟨1 - 1023 + (biasX : Int), f, false⟩ := by
  have hc : classify e f expBits fracBits biasX = .c1b := by rw [classify, if_pos he, if_neg hf]
  rw [rebias, hc]; rfl

theorem rebias_of_infinity (he : e.toNat = 2047) (hf : f = 0) :
    rebias e f expBits fracBits biasX = ⟨2 ^ expBits - 1, 0, false⟩ := by
  have hc : classify e f expBits fracBits biasX = .c2a := by
    rw [classify, if_neg (by omega), if_pos he, if_pos hf]
  rw [rebias, hc, maxExpOf_cast]

theorem rebias_of_nan (he : e.toNat = 2047) (hf : f ≠ 0) :
    rebias e f expBits fracBits biasX = ⟨2 ^ expBits - 1, 0, true⟩ := by
  have hc : classify e f expBits fracBits biasX = .c2b := by
    rw [classify, if_neg (by omega), if_pos he, if_neg hf]
  rw [rebias, hc, maxExpOf_cast]

end

section
variable {e : BitVec 11} (f : BitVec 52) {expBits fracBits biasX : Nat} (hlo : 1 ≤ e.toNat) (hhi : e.toNat ≤ 2046)
include hlo hhi

/-- For a normal input `ne0` alone decides the case (41_exponent_rebias.md R121). -/
theorem classify_of_normal :
    classify e f expBits fracBits biasX =
      if (2 : Int) ^ expBits ≤ rebiasedExp e biasX then .c3a
      else if rebiasedExp e biasX ≤ 0 then
        if rebiasedExp e biasX < -(fracBits : Int) then .c3b else .c3c
      else .c3d := by
  rw [classify, if_neg (by omega), if_neg (by simp only [D_EXP_MAX]; omega)]

theorem rebias_of_overflow (h : (2 : Int) ^ expBits ≤ rebiasedExp e biasX) :
    rebias e f expBits fracBits biasX = ⟨2 ^ expBits - 1, 0, false⟩ := by
  rw [rebias, classify_of_normal f hlo hhi, if_pos h, maxExpOf_cast]

theorem rebias_of_flush (h : rebiasedExp e biasX < -(fracBits : Int)) :
    rebias e f expBits fracBits biasX = ⟨0, 0, false⟩ := by
  have hpow : (0 : Int) < 2 ^ expBits := by positivity
  rw [rebias, classify_of_normal f hlo hhi, if_neg (by omega), if_pos (by omega), if_pos h]

theorem rebias_of_inRange (h1 : 1 ≤ rebiasedExp e biasX) (h2 : rebiasedExp e biasX ≤ 2 ^ expBits - 1) :
    rebias e f expBits fracBits biasX = ⟨rebiasedExp e biasX, f, false⟩ := by
  rw [rebias, classify_of_normal f hlo hhi, if_neg (by omega), if_neg (by omega)]

end

end Sys2Proof.Machine
end

section
/-! ENCODE's result as a number: the three fields extracted, the working fraction adapted, and the place values of the packed
accumulator (spec/42_fraction_adapter.md R151 to R155, spec/43_encode.md R172 to R174). -/

namespace Sys2Proof.Machine

open Sys2Proof.Spec

theorem extractedSign_toNat (val : Word) : (extractedSign val).toNat = sign val := by
  have := val.isLt
  rw [extractedSign, BitVec.toNat_setWidth, readBits_toNat, sign]
  omega

theorem extractedExp_toNat (val : Word) : (extractedExp val).toNat = exponent val := by
  rw [extractedExp, BitVec.toNat_setWidth, readBits_toNat, exponent, Nat.mod_mod]

theorem extractedFrac_toNat (val : Word) : (extractedFrac val).toNat = fraction val := by
  rw [extractedFrac, BitVec.toNat_setWidth, readBits_toNat, fraction, Nat.mod_mod, pow_zero, Nat.div_one]

theorem extractedFrac_ne_zero {val : Word} (h : fraction val ≠ 0) : extractedFrac val ≠ 0 := by
  intro hz
  rw [← extractedFrac_toNat, hz] at h
  exact h rfl

theorem normal_extractedExp {val : Word} (h : Spec.Normal val) :
    1 ≤ (extractedExp val).toNat ∧ (extractedExp val).toNat ≤ 2046 := by
  rwa [extractedExp_toNat]

/-- The model's `ne0` of a request is that of the rules (41_exponent_rebias.md R126). -/
theorem rebiasedExp_extractedExp (val : Word) (expBits : Nat) :
    rebiasedExp (extractedExp val) (biasOf expBits) = ne0 expBits (exponent val) := by
  rw [rebiasedExp, extractedExp_toNat, biasOf_cast]; rfl

/-- A fraction the adapter has moved is below `2^fracBits` (42_fraction_adapter.md R155). -/
theorem adapted_lt (fw : BitVec 52) (fracBits : Nat) : adapted fracBits fw.toNat < 2 ^ fracBits := by
  have hfw := fw.isLt
  rw [adapted]
  split
  · next h =>
    rw [Nat.div_lt_iff_lt_mul (by positivity), ← Nat.pow_add]
    rwa [Nat.add_sub_of_le h.le]
  · next h =>
    calc fw.toNat * 2 ^ (fracBits - 52) < 2 ^ 52 * 2 ^ (fracBits - 52) := by gcongr
      _ = 2 ^ fracBits := by rw [← Nat.pow_add, Nat.add_sub_of_le (not_lt.mp h)]

theorem adapt_eq_ofNat (fw : BitVec 52) (fracBits : Nat) (isNan : Bool) :
    adapt fw fracBits isNan = BitVec.ofNat 62 (if isNan then 2 ^ fracBits - 1 else adapted fracBits fw.toNat) := by
  rw [adapt, adapted, Nat.shiftRight_eq_div_pow, Nat.shiftLeft_eq, apply_ite (BitVec.ofNat 62),
    apply_ite (BitVec.ofNat 62)]

theorem fracOut_lt (fw : BitVec 52) (fracBits : Nat) (isNan : Bool) :
    (if isNan then 2 ^ fracBits - 1 else adapted fracBits fw.toNat) < 2 ^ fracBits := by
  split
  · exact Nat.sub_lt (by positivity) Nat.one_pos
  · exact adapted_lt fw fracBits

/-- ADAPT as a number (42_fraction_adapter.md R151 to R153). -/
theorem adapt_toNat (fw : BitVec 52) {fracBits : Nat} (isNan : Bool) (h : fracBits ≤ 62) :
    (adapt fw fracBits isNan).toNat = if isNan then 2 ^ fracBits - 1 else adapted fracBits fw.toNat := by
  have hlt := (fracOut_lt fw fracBits isNan).trans_le (Nat.pow_le_pow_right (by decide) h)
  rw [adapt_eq_ofNat, BitVec.toNat_ofNat, Nat.mod_eq_of_lt hlt]

theorem adapt_lt (fw : BitVec 52) {fracBits : Nat} (isNan : Bool) (h : fracBits ≤ 62) :
    (adapt fw fracBits isNan).toNat < 2 ^ fracBits :=
  (adapt_toNat fw isNan h).trans_lt (fracOut_lt fw fracBits isNan)

@[simp] theorem adapted_zero (fracBits : Nat) : adapted fracBits 0 = 0 := by
  simp [adapted]

/-- Packing keeps the exponent inside its field (43_encode.md R175). -/
theorem packExp_lt (newExp : Int) (expBits : Nat) : packExp newExp expBits < 2 ^ expBits := by
  rw [packExp]
  split
  · next h => zify [h.1]; have := h.2; omega
  · exact lowBits_lt newExp expBits

/-- Writing a value that fits into a field of a word that holds nothing below the field's top adds it at its place. -/
theorem writeBits_toNat_of_dvd {pos width value : Nat} {word : Word} (h : pos + width ≤ 64) (hv : value < 2 ^ width)
    (hw : 2 ^ (pos + width) ∣ word.toNat) :
    (writeBits pos width (value : Int) word).toNat = word.toNat + value * 2 ^ pos := by
  have hlow : word.toNat % 2 ^ pos = 0 :=
    Nat.mod_eq_zero_of_dvd ((Nat.pow_dvd_pow 2 (Nat.le_add_right pos width)).trans hw)
  have hvalue : ((value : Int) % 2 ^ width).toNat = value := by
    rw [Int.emod_eq_of_lt (by positivity) (by exact_mod_cast hv), Int.toNat_natCast]
  rw [writeBits_toNat h, Nat.div_mul_cancel hw, hlow, hvalue, Nat.add_zero]

/-- The packed accumulator is `s × 2^(totBits−1) + exp_field × 2^fracBits + frac_out` (43_encode.md R174): each of the three
writes finds its field, and all below it, empty. -/
theorem packed_toNat (val : Word) {totBits expBits : Byte} (h : DescriptorLegal totBits.toNat expBits.toNat) :
    (packed val totBits expBits).toNat =
      sign val * 2 ^ (totBits.toNat - 1)
        + packExp (stage1 val totBits expBits).newExp expBits.toNat * 2 ^ fracBits totBits expBits
        + (stage2 val totBits expBits).toNat := by
  obtain ⟨-, htot, -, -, -, hfrac, hsum⟩ := h.bounds
  have htop : totBits.toNat - 1 = fracBitsOf totBits.toNat expBits.toNat + expBits.toNat := by omega
  have hsign : (writeBits (totBits.toNat - 1) 1 (extractedSign val).toNat 0).toNat
      = sign val * 2 ^ (totBits.toNat - 1) := by
    rw [writeBits_toNat_of_dvd (by omega) (extractedSign val).isLt (dvd_zero _), extractedSign_toNat]
    exact Nat.zero_add _
  have hexp := writeBits_toNat_of_dvd (pos := fracBitsOf totBits.toNat expBits.toNat) (by omega)
    (packExp_lt (stage1 val totBits expBits).newExp expBits.toNat)
    (by rw [hsign, htop]; exact Nat.dvd_mul_left _ _)
  have hstage2 : (stage2 val totBits expBits).toNat < 2 ^ fracBitsOf totBits.toNat expBits.toNat := adapt_lt _ _ hfrac
  rw [packed, writeBits_toNat_of_dvd (by omega) hstage2, hexp, hsign, pow_zero, Nat.mul_one]
  · rfl
  · rw [hexp, hsign, htop, Nat.zero_add, Nat.pow_add]
    exact Nat.dvd_add ((Nat.dvd_mul_right _ _).mul_left _) (Nat.dvd_mul_left _ _)

section
variable {val : Word} {totBits expBits : Byte} (s : State) (h : DescriptorLegal totBits.toNat expBits.toNat)
include h

/-- Where the exponent fits, ENCODE answers with the packed accumulator whatever P_SUBNORM_EXP_PACK is (43_encode.md R175). -/
theorem answers_packed (hfit : ExpFits (stage1 val totBits expBits).newExp expBits.toNat) :
    Answers val totBits expBits s (.result (packed val totBits expBits)) := by
  rw [Answers, exec, execEncode, respond_of_legal _ _ h (.inl hfit)]

/-- ENCODE's result from what stage 1 gives, where the exponent fits. -/
theorem gives_of_stage1 {newExp fw isNan} (hr : stage1 val totBits expBits = ⟨newExp, fw, isNan⟩)
    (hfit : ExpFits newExp expBits.toNat) :
    Gives val totBits expBits s (sign val * 2 ^ (totBits.toNat - 1) + newExp.toNat * 2 ^ fracBits totBits expBits
      + if isNan then 2 ^ fracBits totBits expBits - 1 else adapted (fracBits totBits expBits) fw.toNat) := by
  obtain ⟨-, -, -, -, -, hfrac, -⟩ := h.bounds
  refine ⟨_, answers_packed s h (by rwa [hr]), ?_⟩
  rw [packed_toNat val h, stage2, adapt_toNat _ _ hfrac, hr, packExp, if_pos hfit]
  rfl

theorem gives_zero_of_stage1 (hr : stage1 val totBits expBits = ⟨0, 0, false⟩) :
    Gives val totBits expBits s (sign val * 2 ^ (totBits.toNat - 1)) := by
  have hpow : (0 : Int) < 2 ^ expBits.toNat := by positivity
  simpa using gives_of_stage1 s h hr ⟨le_rfl, by omega⟩

theorem gives_allOnes_of_stage1 {isNan} (hr : stage1 val totBits expBits = ⟨2 ^ expBits.toNat - 1, 0, isNan⟩) :
    Gives val totBits expBits s (sign val * 2 ^ (totBits.toNat - 1)
      + (2 ^ expBits.toNat - 1) * 2 ^ fracBits totBits expBits
      + if isNan then 2 ^ fracBits totBits expBits - 1 else 0) := by
  have hpow : (0 : Int) < 2 ^ expBits.toNat := by positivity
  have hmax : ((2 : Int) ^ expBits.toNat - 1).toNat = 2 ^ expBits.toNat - 1 := by
    rw [← maxExpOf_cast, Int.toNat_natCast, maxExpOf]
  simpa [hmax] using gives_of_stage1 s h hr ⟨by omega, le_rfl⟩

end

end Sys2Proof.Machine
end

section
/-! The obligations on the exponent rebiasing engine (spec/41_exponent_rebias.md R122 to R130). In each, one `rebias_of_…` lemma
serves REBIAS applied directly and stage 1 of ENCODE. -/

namespace Sys2Proof

open Sys2Proof.Machine Sys2Proof.Spec

/-- Settles O11: case 1a, and a zero exponent and fraction leave the sign alone in the result. -/
theorem zeroGivesSignedZero : Obligations.ZeroGivesSignedZero := by
  refine ⟨fun expBits fracBits biasX s h => ?_, fun totBits expBits s h => ⟨?_, ?_⟩, fun s => rfl⟩
  · exact exec_rebias_of_legal s h (rebias_of_zero _ _ _ rfl rfl)
  · simpa [sign] using gives_zero_of_stage1 (val := 0) s h (rebias_of_zero _ _ _ rfl rfl)
  · simpa [sign] using gives_zero_of_stage1 (val := 0x8000000000000000) s h (rebias_of_zero _ _ _ rfl rfl)

/-- Settles O12: case 1b; its exponent is 1 exactly where `2^(expBits−1) = 2^10`. -/
theorem subnormalInputIsNotClamped : Obligations.SubnormalInputIsNotClamped := by
  refine ⟨fun f expBits fracBits biasX s h hf => ?_, fun expBits h => ?_, fun s => ⟨rfl, rfl⟩⟩
  · exact exec_rebias_of_legal s h (rebias_of_subnormal _ _ _ rfl hf)
  · have hpow : 2 ^ (expBits - 1) = 2 ^ 10 ↔ expBits - 1 = 10 := Nat.pow_right_inj (by decide)
    omega

/-- Settles O13: case 2a, and the all-ones exponent over fraction 0 is the infinity pattern. -/
theorem infinityGivesInfinity : Obligations.InfinityGivesInfinity := by
  refine ⟨fun expBits fracBits biasX s h => ?_, fun totBits expBits s h => ⟨?_, ?_⟩, fun s => rfl⟩
  · exact exec_rebias_of_legal s h (rebias_of_infinity _ _ _ rfl rfl)
  · simpa [sign] using
      gives_allOnes_of_stage1 (val := 0x7FF0000000000000) s h (rebias_of_infinity _ _ _ rfl rfl)
  · simpa [sign] using
      gives_allOnes_of_stage1 (val := 0xFFF0000000000000) s h (rebias_of_infinity _ _ _ rfl rfl)

/-- Settles O14: case 2b does not look at the payload, and the NaN flag sets every fraction bit. -/
theorem nanIsCanonical : Obligations.NanIsCanonical := by
  refine ⟨fun f expBits fracBits biasX s h hf => ?_, fun val totBits expBits s h he hf => ?_, fun s => rfl⟩
  · exact exec_rebias_of_legal s h (rebias_of_nan _ _ _ rfl hf)
  · exact gives_allOnes_of_stage1 s h
      (rebias_of_nan _ _ _ ((extractedExp_toNat val).trans he) (extractedFrac_ne_zero hf))

/-- Settles O15: case 3a gives what case 2a gives, and `ne0` of the extracted exponent is the rules' `ne0`. -/
theorem overflowSaturatesToInfinity : Obligations.OverflowSaturatesToInfinity := by
  refine ⟨fun e f expBits fracBits biasX s h hlo hhi hne => ?_, fun val totBits expBits s h hn hne => ?_,
    fun s => ⟨rfl, rfl⟩⟩
  · exact exec_rebias_of_legal s h (rebias_of_overflow f hlo hhi hne)
  · rw [← rebiasedExp_extractedExp] at hne
    obtain ⟨hlo, hhi⟩ := normal_extractedExp hn
    exact gives_allOnes_of_stage1 s h (rebias_of_overflow _ hlo hhi hne)

/-- Settles O16: case 3b gives what case 1a gives, so ENCODE's result is a zero of the input's sign. -/
theorem underflowFlushesToSignedZero : Obligations.UnderflowFlushesToSignedZero := by
  refine ⟨fun e f expBits fracBits biasX s h hlo hhi hne => ?_, fun val totBits expBits s h hn hne => ?_,
    fun s => rfl⟩
  · exact exec_rebias_of_legal s h (rebias_of_flush f hlo hhi hne)
  · rw [← rebiasedExp_extractedExp] at hne
    obtain ⟨hlo, hhi⟩ := normal_extractedExp hn
    exact gives_zero_of_stage1 s h (rebias_of_flush _ hlo hhi hne)

/-- Settles O18: the last case, 3d, is where `ne0` neither overflows nor is at most 0. -/
theorem inRangeExponentPassesThrough : Obligations.InRangeExponentPassesThrough := by
  refine ⟨fun e f expBits fracBits biasX s h hlo hhi h1 h2 => ?_, fun s => ⟨rfl, rfl⟩⟩
  exact exec_rebias_of_legal s h (rebias_of_inRange f hlo hhi h1 h2)

end Sys2Proof
end

section
/-! The obligations on the fraction width adapter (spec/42_fraction_adapter.md R151 to R153): ADAPT applied directly completes with
`adapt`'s fraction, whose value `adapt_toNat` gives. -/

namespace Sys2Proof

open Sys2Proof.Machine Sys2Proof.Spec

theorem exec_adapt_of_legal (fw : BitVec 52) {fracBits : Nat} (isNan : Bool) (s : State)
    (h : AdaptOperandsLegal fracBits) :
    exec (.adapt fw fracBits isNan) s = .next { s with sub := .frac (adapt fw fracBits isNan) } := by
  rw [exec, execAdapt, if_pos h, State.finishSub]

theorem adapted_of_narrow {fracBits : Nat} (fw : Nat) (h : fracBits < 52) :
    adapted fracBits fw = fw / 2 ^ (52 - fracBits) :=
  if_pos h

theorem adapted_of_wide {fracBits : Nat} (fw : Nat) (h : 52 ≤ fracBits) :
    adapted fracBits fw = fw * 2 ^ (fracBits - 52) :=
  if_neg h.not_gt

/-- Settles O21: without the NaN flag the value is that of `adapted`, on its narrow side. -/
theorem adaptTruncatesNarrowFractions : Obligations.AdaptTruncatesNarrowFractions := by
  refine ⟨fun fw fracBits s hlo hhi => ?_, fun s => rfl⟩
  have h : fracBits ≤ 62 := by omega
  exact ⟨_, exec_adapt_of_legal fw false s ⟨hlo, h⟩, (adapt_toNat fw false h).trans (adapted_of_narrow _ hhi)⟩

/-- Settles O22: without the NaN flag the value is that of `adapted`, on its wide side; at 52 the factor is `2^0`. -/
theorem adaptExtendsWideFractions : Obligations.AdaptExtendsWideFractions := by
  refine ⟨fun fw fracBits s hlo hhi => ?_, fun s => ⟨rfl, rfl⟩⟩
  have hvalue : (adapt fw fracBits false).toNat = fw.toNat * 2 ^ (fracBits - 52) :=
    (adapt_toNat fw false hhi).trans (adapted_of_wide _ hlo)
  refine ⟨_, exec_adapt_of_legal fw false s ⟨by omega, hhi⟩, hvalue, ?_⟩
  rintro rfl
  rw [hvalue, Nat.sub_self, pow_zero, Nat.mul_one]

/-- Settles O23: with the NaN flag the value does not depend on the working fraction. -/
theorem adaptSetsNanFractionDirectly : Obligations.AdaptSetsNanFractionDirectly :=
  ⟨fun fw _ s hlo hhi => ⟨_, exec_adapt_of_legal fw true s ⟨hlo, hhi⟩, adapt_toNat fw true hhi⟩,
    fun _ _ => ⟨rfl, rfl, rfl⟩⟩

end Sys2Proof
end

section
/-! ENCODE's order on positive normal doubles (spec/41_exponent_rebias.md R128 to R130, spec/42_fraction_adapter.md R151, R152,
spec/43_encode.md R174). Below overflow the result is one formula: exponent field and fraction at 52 fraction bits, as one
number, which ADAPT's truncation or extension takes to the target's width. Each of the two parts is monotone. -/

namespace Sys2Proof.Machine

open Sys2Proof.Spec

/-- The rebiased exponent `n` and the fraction as one number with 52 fraction bits: in range the exponent stands above the
fraction (41_exponent_rebias.md R130), below that the significand is shifted down (R129). -/
def widePattern (n : Int) (f : Nat) : Nat :=
  if 1 ≤ n then n.toNat * 2 ^ 52 + f else (f + 2 ^ 52) / 2 ^ (1 - n).toNat

theorem widePattern_of_inRange {n : Int} (h : 1 ≤ n) (f : Nat) : widePattern n f = n.toNat * 2 ^ 52 + f :=
  if_pos h

theorem widePattern_of_subnormal {n : Int} (h : n ≤ 0) (f : Nat) :
    widePattern n f = (f + 2 ^ 52) / 2 ^ (1 - n).toNat :=
  if_neg (by omega)

/-- At an exponent of at most 0 the significand loses a factor of 2 for the exponent 0 and one for each step below it. -/
theorem widePattern_le_of_subnormal {n : Int} (h : n ≤ 0) {f : Nat} (hf : f < 2 ^ 52) :
    widePattern n f ≤ 2 ^ 52 / 2 ^ (-n).toNat := by
  rw [widePattern_of_subnormal h, show (1 - n).toNat = 1 + (-n).toNat by omega, pow_add, ← Nat.div_div_eq_div_mul]
  exact Nat.div_le_div_right (by omega)

/-- The greater exponent decides, and at equal exponents the fraction does. -/
theorem widePattern_mono {n m : Int} {f g : Nat} (hf : f < 2 ^ 52) (h : n < m ∨ n = m ∧ f ≤ g) :
    widePattern n f ≤ widePattern m g := by
  rcases h with hlt | ⟨rfl, hfg⟩
  · rcases lt_or_ge (0 : Int) n with hn | hn
    · rw [widePattern_of_inRange hn, widePattern_of_inRange (by omega)]
      omega
    · refine (widePattern_le_of_subnormal hn hf).trans ?_
      rcases lt_or_ge (0 : Int) m with hm | hm
      · rw [widePattern_of_inRange hm]
        exact (Nat.div_le_self _ _).trans (by omega)
      · rw [widePattern_of_subnormal hm]
        calc 2 ^ 52 / 2 ^ (-n).toNat ≤ 2 ^ 52 / 2 ^ (1 - m).toNat := by gcongr <;> omega
          _ ≤ (g + 2 ^ 52) / 2 ^ (1 - m).toNat := by gcongr; omega
  · unfold widePattern
    split <;> gcongr

theorem adapted_mono (fracBits : Nat) {f g : Nat} (h : f ≤ g) : adapted fracBits f ≤ adapted fracBits g := by
  unfold adapted
  split <;> gcongr

/-- ADAPT's shift moves an exponent from above 52 fraction bits to above `fracBits`. -/
theorem adapted_add (fracBits n f : Nat) :
    adapted fracBits (n * 2 ^ 52 + f) = n * 2 ^ fracBits + adapted fracBits f := by
  rcases lt_or_ge fracBits 52 with h | h
  · have hpow : n * 2 ^ 52 = n * 2 ^ fracBits * 2 ^ (52 - fracBits) := by
      rw [mul_assoc, ← pow_add, Nat.add_sub_of_le h.le]
    rw [adapted_of_narrow _ h, adapted_of_narrow _ h, hpow, add_comm, Nat.add_mul_div_right _ _ (by positivity), add_comm]
  · rw [adapted_of_wide _ h, adapted_of_wide _ h, add_mul, mul_assoc, ← pow_add, Nat.add_sub_of_le h]

theorem adapted_eq_zero {fracBits f : Nat} (h : f < 2 ^ (52 - fracBits)) : adapted fracBits f = 0 := by
  rcases lt_or_ge fracBits 52 with hfrac | hfrac
  · rw [adapted_of_narrow _ hfrac, Nat.div_eq_of_lt h]
  · rw [Nat.sub_eq_zero_of_le hfrac] at h
    rw [adapted_of_wide _ hfrac, Nat.lt_one_iff.mp h, zero_mul]

/-- What case 3b flushes is what the adapter would have truncated to 0 (41_exponent_rebias.md R128). -/
theorem adapted_widePattern_of_flush {fracBits : Nat} {n : Int} (h : n < -(fracBits : Int)) {f : Nat} (hf : f < 2 ^ 52) :
    adapted fracBits (widePattern n f) = 0 := by
  refine adapted_eq_zero ?_
  rw [widePattern_of_subnormal (by omega), Nat.div_lt_iff_lt_mul (by positivity), ← pow_add]
  calc f + 2 ^ 52 < 2 ^ 53 := by omega
    _ ≤ 2 ^ (52 - fracBits + (1 - n).toNat) := Nat.pow_le_pow_right (by decide) (by omega)

/-- Case 3c (41_exponent_rebias.md R129). -/
theorem rebias_of_targetSubnormal {e : BitVec 11} (f : BitVec 52) {expBits fracBits biasX : Nat} (hlo : 1 ≤ e.toNat)
    (hhi : e.toNat ≤ 2046) (h1 : -(fracBits : Int) ≤ rebiasedExp e biasX) (h2 : rebiasedExp e biasX ≤ 0) :
    rebias e f expBits fracBits biasX = ⟨0, subnormalShift f (rebiasedExp e biasX), false⟩ := by
  have hpow : (0 : Int) < 2 ^ expBits := by positivity
  rw [rebias, classify_of_normal f hlo hhi, if_neg (by omega), if_pos h2, if_neg (by omega)]

/-- The shifted significand stays in the 52-bit domain (41_exponent_rebias.md R129). -/
theorem subnormalShift_toNat (f : BitVec 52) {n : Int} (h : n ≤ 0) :
    (subnormalShift f n).toNat = widePattern n f.toNat := by
  have hlt : (f.toNat + 2 ^ 52) / 2 ^ (1 - n).toNat < 2 ^ 52 := by
    have hf := f.isLt
    rw [Nat.div_lt_iff_lt_mul (by positivity)]
    calc f.toNat + 2 ^ 52 < 2 ^ 52 * 2 ^ 1 := by omega
      _ ≤ 2 ^ 52 * 2 ^ (1 - n).toNat := by gcongr <;> omega
  rw [subnormalShift, Nat.shiftRight_eq_div_pow, BitVec.toNat_ofNat, Nat.mod_eq_of_lt hlt, widePattern_of_subnormal h]

theorem fraction_lt (val : Word) : fraction val < 2 ^ 52 :=
  Nat.mod_lt _ (by positivity)

/-- ENCODE of a normal double that does not overflow: cases 3b, 3c and 3d as one formula. -/
theorem gives_adapted_widePattern {val : Word} {totBits expBits : Byte} (s : State)
    (h : DescriptorLegal totBits.toNat expBits.toNat) (hn : Normal val)
    (hne : ne0 expBits.toNat (exponent val) ≤ 2 ^ expBits.toNat - 1) :
    Gives val totBits expBits s (sign val * 2 ^ (totBits.toNat - 1)
      + adapted (fracBits totBits expBits) (widePattern (ne0 expBits.toNat (exponent val)) (fraction val))) := by
  obtain ⟨hlo, hhi⟩ := normal_extractedExp hn
  have hpow : (0 : Int) < 2 ^ expBits.toNat := by positivity
  rw [← rebiasedExp_extractedExp] at hne ⊢
  rcases lt_or_ge (rebiasedExp (extractedExp val) (biasOf expBits.toNat)) (-(fracBits totBits expBits : Int))
    with hflush | hkeep
  · rw [adapted_widePattern_of_flush hflush (fraction_lt val)]
    exact gives_zero_of_stage1 s h (rebias_of_flush _ hlo hhi hflush)
  · rcases lt_or_ge (0 : Int) (rebiasedExp (extractedExp val) (biasOf expBits.toNat)) with hpos | hsub
    · rw [widePattern_of_inRange hpos, adapted_add, ← extractedFrac_toNat, ← Nat.add_assoc]
      exact gives_of_stage1 s h (rebias_of_inRange _ hlo hhi hpos hne) ⟨by omega, hne⟩
    · rw [← extractedFrac_toNat, ← subnormalShift_toNat _ hsub]
      simpa using gives_of_stage1 s h (rebias_of_targetSubnormal _ hlo hhi hkeep hsub) ⟨le_rfl, by omega⟩

/-- The pattern of a positive double is its exponent and fraction, so its order is theirs. -/
theorem fields_le_of_le {v w : Word} (hw : sign w = 0) (h : v.toNat ≤ w.toNat) :
    sign v = 0 ∧ (exponent v < exponent w ∨ exponent v = exponent w ∧ fraction v ≤ fraction w) := by
  simp only [sign, exponent, fraction] at *
  omega

end Sys2Proof.Machine

namespace Sys2Proof

open Sys2Proof.Machine Sys2Proof.Spec

/-- Settles O37: with sign 0 the result is `adapted` of `widePattern`, monotone both, and the order of the patterns is that of
exponent and fraction. -/
theorem encodingIsMonotone : Obligations.EncodingIsMonotone := by
  intro v w totBits expBits s h hv hw hsign hle hne
  obtain ⟨hsignv, hfields⟩ := fields_le_of_le hsign hle
  have hne0 : ne0 expBits.toNat (exponent v) < ne0 expBits.toNat (exponent w) ∨
      ne0 expBits.toNat (exponent v) = ne0 expBits.toNat (exponent w) ∧ fraction v ≤ fraction w := by
    unfold ne0; omega
  obtain ⟨a, hva, ha⟩ := gives_adapted_widePattern s h hv (by omega)
  obtain ⟨b, hwb, hb⟩ := gives_adapted_widePattern s h hw hne
  refine ⟨a, b, hva, hwb, ?_⟩
  rw [ha, hb, hsignv, hsign]
  exact Nat.add_le_add_left (adapted_mono _ (widePattern_mono (fraction_lt v) hne0)) _

end Sys2Proof
end

section
/-! ENCODE's fault and how it is reported (spec/60_exceptions.md R200, R201): which half of the descriptor it names, and what a
combinational implementation shows and records of a response (spec/70_reset_and_hazards.md R236). -/

namespace Sys2Proof.Machine

open Sys2Proof.Spec

/-- ENCODE answers every request, with `respond`. -/
theorem answers_respond (val : Word) (totBits expBits : Byte) (s : State) :
    Answers val totBits expBits s (respond s.params (Config.freeResult s.draws) val totBits expBits) := rfl

/-- The totBits half is tested first, so it is the one reported exactly where it fails (43_encode.md R171). -/
theorem which_eq_totBits_iff {which : DescriptorField} {totBits expBits : Byte}
    (h : checkDescriptor totBits expBits = .error (.preconditionViolation which totBits expBits)) :
    which = .totBits ↔ ¬ (3 ≤ totBits.toNat ∧ totBits.toNat ≤ 64) := by
  unfold checkDescriptor at h
  split at h
  · next htot => cases h; exact iff_of_true rfl htot
  · next htot =>
    split at h
    · cases h; exact iff_of_false nofun htot
    · cases h

/-- The response to an illegal descriptor is the fault of the precondition check (60_exceptions.md R200). -/
theorem respond_of_illegal (params : Params) (draw val : Word) {totBits expBits : Byte}
    (h : ¬ DescriptorLegal totBits.toNat expBits.toNat) :
    ∃ which, respond params draw val totBits expBits = .fault (.preconditionViolation which totBits expBits) ∧
      checkDescriptor totBits expBits = .error (.preconditionViolation which totBits expBits) := by
  obtain ⟨which, hpath, hcheck⟩ := encodeDatapath_of_illegal params.bitRange val h
  exact ⟨which, by rw [respond, hpath], hcheck⟩

/-- The response to a legal descriptor is a result: the packed accumulator, or the draw (43_encode.md R175). -/
theorem respond_eq_result_of_legal (params : Params) (draw val : Word) {totBits expBits : Byte}
    (h : DescriptorLegal totBits.toNat expBits.toNat) : ∃ r, respond params draw val totBits expBits = .result r := by
  rw [respond_eq, checkDescriptor_of_legal h]
  dsimp only
  split
  · exact ⟨_, rfl⟩
  · exact ⟨_, rfl⟩

/-- The output ports carry the response they show (10_state.md R26). -/
theorem portsOf_carries (n : Nat) (rsp : Response) : (portsOf n (some rsp)).Carries rsp := by
  cases rsp with
  | result r => exact ⟨rfl, rfl⟩
  | fault f => exact rfl

/-- In a combinational implementation an edge delivers what is presented, at once (70_reset_and_hazards.md R236). -/
theorem State.clock_of_latency_zero {s : State} (h : s.latency = 0) (r : Option Response) : s.clock r = s.deliver r := by
  have hpipe : s.pipe = [] := List.length_eq_zero_iff.mp h
  rw [State.clock, hpipe, arriving_nil, shiftPipe_nil, ← hpipe]
  rfl

/-- Delivering a fault records it where the run has none (60_exceptions.md R201). -/
theorem State.deliver_fault_of_fault (s : State) (f : Fault) :
    (s.deliver (some (.fault f))).fault = some (s.fault.getD f) := by
  cases hs : s.fault with
  | none => simp [hs, Response.faultOf]
  | some g => simp [hs]

/-- Delivering a result leaves the record as it is. -/
theorem State.deliver_fault_of_result (s : State) (r : Word) : (s.deliver (some (.result r))).fault = s.fault := by
  simp [Response.faultOf]

end Sys2Proof.Machine

namespace Sys2Proof

open Sys2Proof.Machine Sys2Proof.Spec

/-- Settles O28: ENCODE answers with `respond`, which faults exactly where the precondition check does. -/
theorem illegalDescriptorFaults : Obligations.IllegalDescriptorFaults := by
  refine ⟨fun val totBits expBits s h => ?_, fun val totBits expBits s h => ?_⟩
  · obtain ⟨which, hrsp, hcheck⟩ := respond_of_illegal s.params (Config.freeResult s.draws) val h
    exact ⟨which, hrsp ▸ answers_respond val totBits expBits s, rfl, which_eq_totBits_iff hcheck⟩
  · obtain ⟨r, hrsp⟩ := respond_eq_result_of_legal s.params (Config.freeResult s.draws) val h
    exact ⟨r, hrsp ▸ answers_respond val totBits expBits s⟩

/-- Settles O42: at LATENCY = 0 the step that accepts a request delivers its response. -/
theorem combinationalAnswersAtOnce : Obligations.CombinationalAnswersAtOnce := by
  intro val totBits expBits s hlat
  have hanswers := answers_respond val totBits expBits s
  generalize respond s.params (Config.freeResult s.draws) val totBits expBits = rsp at hanswers
  refine ⟨rsp, s.deliver (some rsp), hanswers, ?_, portsOf_carries s.draws rsp, rfl, hlat, ?_, ?_⟩
  · rw [hanswers, State.clock_of_latency_zero hlat]
  · rintro f rfl
    exact s.deliver_fault_of_fault f
  · rintro r rfl
    exact s.deliver_fault_of_result r

end Sys2Proof
end

section
/-! Request and response words (spec/30_encoding.md R64, R66 to R74): decoding against encoding, the count of the legal
descriptors, request lines, and the response word. -/

namespace Sys2Proof

open Sys2Proof.Machine

/-- The word of the fields a word has is that word (R66). -/
@[simp] theorem packReq_fields (w : ReqWord) : packReq (reqVal w) (reqTotBits w) (reqExpBits w) = w := by
  have hw := w.isLt
  refine BitVec.eq_of_toNat_eq ?_
  simp only [packReq_toNat, reqVal, reqTotBits, reqExpBits, BitVec.extractLsb'_toNat, Nat.shiftRight_eq_div_pow]
  omega

@[simp] theorem decodeReq_packReq (val : Word) (totBits expBits : Byte) :
    decodeReq (packReq val totBits expBits) = .encode val totBits expBits := by
  simp [decodeReq]

/-- Every 80-bit word is an ENCODE request (R68). -/
@[simp] theorem decode_reqWord (w : ReqWord) : decode w = .ok (decodeReq w) := by
  rw [decode, if_pos rfl, BitVec.setWidth_eq]

/-- An instruction with a request word is an ENCODE, and the word is its packed fields (R66, R68). -/
theorem encode_eq_some_iff {i : Instr} {w : ReqWord} :
    encode i = some w ↔ ∃ val totBits expBits, i = .encode val totBits expBits ∧ packReq val totBits expBits = w := by
  cases i <;> simp [encode]

/-- Settles O1: packing the fields of a word gives the word, and the fields of a packed word are what was packed. -/
theorem decodeAndEncodeAgree : Obligations.DecodeAndEncodeAgree := by
  refine ⟨fun i w h => ?_, fun w => ⟨decodeReq w, decode_reqWord w, ?_⟩, fun n bits h => if_neg h⟩
  · obtain ⟨val, totBits, expBits, rfl, rfl⟩ := encode_eq_some_iff.mp h
    rw [decode_reqWord, decodeReq_packReq]
  · exact encode_eq_some_iff.mpr ⟨_, _, _, rfl, packReq_fields w⟩

/-- Settles O3: the four words are closed terms, and the decoder is run on them. -/
theorem writtenOutWordsDecode : Obligations.WrittenOutWordsDecode := by
  unfold Obligations.WrittenOutWordsDecode
  decide

/-- Settles O4: to have a word is to be an ENCODE. -/
theorem onlyEncodeIsSelectable : Obligations.OnlyEncodeIsSelectable := by
  intro i
  simp [Option.isSome_iff_exists, encode_eq_some_iff]

/-- The numbers below `n` whose two low bytes, expBits over totBits, are a legal descriptor. -/
def legalDescriptorsBelow (n : Nat) : Finset Nat :=
  {k ∈ Finset.range n | DescriptorLegal (k % 256) (k / 256)}

theorem mem_legalDescriptorsBelow {n k : Nat} :
    k ∈ legalDescriptorsBelow n ↔ k < n ∧ DescriptorLegal (k % 256) (k / 256) := by
  rw [legalDescriptorsBelow, Finset.mem_filter, Finset.mem_range]

theorem length_legal_filter (n : Nat) :
    ((List.range n).filter fun k => decide (DescriptorLegal (k % 256) (k / 256))).length =
      (legalDescriptorsBelow n).card := rfl

/-- The legal descriptors of one expBits are the totBits from `expBits + 2` to 64 (R64). -/
theorem legalDescriptorsBelow_row {n expBits : Nat} (hn : n = 65536) (hexp : expBits ∈ Finset.Icc 1 62) :
    {k ∈ legalDescriptorsBelow n | k / 256 = expBits} =
      Finset.Icc (expBits * 256 + (expBits + 2)) (expBits * 256 + 64) := by
  rw [Finset.mem_Icc] at hexp
  ext k
  simp only [Finset.mem_filter, mem_legalDescriptorsBelow, Finset.mem_Icc, DescriptorLegal, TOT_MIN, TOT_MAX, EXP_MIN,
    EXP_MAX]
  omega

/-- Row by row the count is `62 + 61 + … + 1`. -/
theorem card_legalDescriptorsBelow {n : Nat} (hn : n = 65536) : (legalDescriptorsBelow n).card = 1953 := by
  have hrows : ∀ k ∈ legalDescriptorsBelow n, k / 256 ∈ Finset.Icc 1 62 := by
    intro k hk
    obtain ⟨-, -, hlo, hhi, -⟩ := (mem_legalDescriptorsBelow.mp hk).2.bounds
    exact Finset.mem_Icc.mpr ⟨hlo, hhi⟩
  have hrow : ∀ expBits ∈ Finset.Icc 1 62, {k ∈ legalDescriptorsBelow n | k / 256 = expBits}.card = 63 - expBits := by
    intro expBits hexp
    rw [legalDescriptorsBelow_row hn hexp, Nat.card_Icc]
    omega
  rw [Finset.card_eq_sum_card_fiberwise hrows, Finset.sum_congr rfl hrow]
  decide

/-- Settles O5: the legal descriptors are counted by their expBits. -/
theorem legalDescriptorsAre1953 : Obligations.LegalDescriptorsAre1953 :=
  (length_legal_filter _).trans (card_legalDescriptorsBelow rfl)

/-- Settles O6: the six lines are closed terms, and the assembler is run on them; the third computes with `10^301`, which is
past the elaborator's exponent threshold and is left to the kernel. -/
theorem requestLinesAssemble : Obligations.RequestLinesAssemble :=
  ⟨by decide, by decide, by decide +kernel, by decide, by decide, by decide⟩

/-- Settles O54: the response word is an append, whose slices and place value are the library's. -/
theorem responseWordIsFaultThenResult : Obligations.ResponseWordIsFaultThenResult := by
  intro o
  refine ⟨?_, ?_, ?_⟩
  · refine (BitVec.getLsbD_append (x := BitVec.ofBool o.fault_o) (y := o.result_o)).trans ?_
    simp
  · exact (BitVec.setWidth_append (x := BitVec.ofBool o.fault_o) (y := o.result_o)).trans (by simp)
  · refine (toNat_append_eq_add _ _).trans ?_
    cases o.fault_o <;> rfl

end Sys2Proof
end

section
/-! What a step can do, said once: with the next cycle's values on the input ports, the machine has an edge that accepts what
`acceptedNext` says, or a reset edge, or (combinational, nothing queued) nothing happens (spec/70_reset_and_hazards.md R232,
R233, R236). -/

namespace Sys2Proof.Machine

open Sys2Proof.Spec

/-- The state with the next cycle's values driven onto the input ports (log entry 1). -/
def State.driven (s : State) : State :=
  match s.host with
  | [] => { s with inp := { s.inp with in_valid_i := false, rst_i := false } }
  | i :: rest => s.present i rest

section Driven
variable (s : State)

theorem State.driven_of_nil {s : State} (h : s.host = []) :
    s.driven = { s with inp := { s.inp with in_valid_i := false, rst_i := false } } := by
  rw [State.driven, h]

theorem State.driven_of_cons {s : State} {i : Inputs} {rest : List Inputs} (h : s.host = i :: rest) :
    s.driven = s.present i rest := by
  rw [State.driven, h]

@[simp] theorem State.driven_params : s.driven.params = s.params := by unfold State.driven; split <;> rfl
@[simp] theorem State.driven_pipe : s.driven.pipe = s.pipe := by unfold State.driven; split <;> rfl
@[simp] theorem State.driven_responses : s.driven.responses = s.responses := by unfold State.driven; split <;> rfl
@[simp] theorem State.driven_fault : s.driven.fault = s.fault := by unfold State.driven; split <;> rfl
@[simp] theorem State.driven_draws : s.driven.draws = s.draws := by unfold State.driven; split <;> rfl
@[simp] theorem State.driven_host : s.driven.host = s.host.tail := by
  unfold State.driven; split <;> next h => simp [h]

end Driven

theorem State.latency_eq_zero {s : State} : s.latency = 0 ↔ s.pipe = [] := List.length_eq_zero_iff

section
variable {s : State} {i : Inputs} {rest : List Inputs}

theorem acceptedNext_of_nil (h : s.host = []) : acceptedNext s = [] := by rw [acceptedNext, h]

theorem resetNext_of_nil (h : s.host = []) : resetNext s = false := by rw [resetNext, h]

theorem acceptedNext_of_request (h : s.host = i :: rest) (hi : s.latency = 0 ∨ (i.rst_i = false ∧ i.in_valid_i = true)) :
    acceptedNext s = [respond s.params (Config.freeResult s.draws) i.val_i i.tot_bits_i i.exp_bits_i] := by
  rw [State.latency_eq_zero] at hi
  simp only [acceptedNext, h, if_pos hi]

theorem acceptedNext_of_idle (h : s.host = i :: rest) (hl : s.latency ≠ 0) (hv : i.in_valid_i = false) :
    acceptedNext s = [] := by
  rw [Ne, State.latency_eq_zero] at hl
  simp [acceptedNext, h, hl, hv]

theorem resetNext_of_cons (h : s.host = i :: rest) : resetNext s = (decide (s.latency ≠ 0) && i.rst_i) := by
  rw [resetNext, h]
  cases hp : s.pipe <;> simp [State.latency, hp]

end

/-- At most one request is accepted in a cycle. -/
theorem toList_head?_acceptedNext (s : State) : (acceptedNext s).head?.toList = acceptedNext s := by
  unfold acceptedNext
  split
  · rfl
  · split <;> rfl

/-- What a step can do. -/
inductive StepEffect (s : State) : State → Prop
  | held (hhost : s.host = []) (hlat : s.latency = 0) : StepEffect s s
  | edge (hlive : s.host = [] → s.latency ≠ 0) (hreset : resetNext s = false) :
      StepEffect s (s.driven.clock (acceptedNext s).head?)
  | reset (hreset : resetNext s = true) : StepEffect s s.driven.resetEdge

/-- An ENCODE request accepted now (43_encode.md R170). -/
theorem exec_decodeReq (i : Inputs) (s : State) :
    exec (decodeReq i.req) s =
      .next (s.clock (some (respond s.params (Config.freeResult s.draws) i.val_i i.tot_bits_i i.exp_bits_i))) := by
  rw [i.req_eq_packReq, decodeReq_packReq]
  rfl

/-! The step's equations, one for each kind of cycle. -/

theorem step_of_request {s : State} {i : Inputs} {rest : List Inputs} (h : s.host = i :: rest)
    (hi : s.latency = 0 ∨ (i.rst_i = false ∧ i.in_valid_i = true)) :
    step s = exec (decodeReq i.req) (s.present i rest) := by
  rcases hi with hl | ⟨hr, hv⟩
  · simp [step, State.fetch, h, hl]
  · by_cases hl : s.latency = 0 <;> simp [step, State.fetch, h, hl, hr, hv]

theorem step_of_reset {s : State} {i : Inputs} {rest : List Inputs} (h : s.host = i :: rest) (hl : s.latency ≠ 0)
    (hr : i.rst_i = true) : step s = .next (s.present i rest).resetEdge := by
  simp [step, State.fetch, h, hl, hr]

theorem step_of_idle {s : State} {i : Inputs} {rest : List Inputs} (h : s.host = i :: rest) (hl : s.latency ≠ 0)
    (hr : i.rst_i = false) (hv : i.in_valid_i = false) : step s = .next ((s.present i rest).clock none) := by
  simp [step, State.fetch, h, hl, hr, hv]

theorem step_of_nil_combinational {s : State} (h : s.host = []) (hl : s.latency = 0) : step s = .next s := by
  simp [step, State.fetch, h, State.idleCycle, hl]

theorem step_of_nil_registered {s : State} (h : s.host = []) (hl : s.latency ≠ 0) :
    step s = .next (s.driven.clock none) := by
  simp [step, State.fetch, h, State.idleCycle, hl, State.driven_of_nil]

/-- Every step answers, with one of the three effects. -/
theorem step_effect_exists (s : State) : ∃ t, step s = .next t ∧ StepEffect s t := by
  cases hhost : s.host with
  | nil =>
    by_cases hl : s.latency = 0
    · exact ⟨s, step_of_nil_combinational hhost hl, .held hhost hl⟩
    · have heffect := StepEffect.edge (fun _ => hl) (resetNext_of_nil hhost)
      rw [acceptedNext_of_nil hhost] at heffect
      exact ⟨_, step_of_nil_registered hhost hl, heffect⟩
  | cons i rest =>
    have hdriven := State.driven_of_cons hhost
    have hlive : s.host = [] → s.latency ≠ 0 := by simp [hhost]
    have hresetNext := resetNext_of_cons hhost
    by_cases hreq : s.latency = 0 ∨ (i.rst_i = false ∧ i.in_valid_i = true)
    · have heffect := StepEffect.edge hlive (by rw [hresetNext]; rcases hreq with hl | ⟨hr, -⟩ <;> simp [*])
      rw [acceptedNext_of_request hhost hreq, hdriven] at heffect
      exact ⟨_, (step_of_request hhost hreq).trans (exec_decodeReq ..), heffect⟩
    · obtain ⟨hl, hreq⟩ := not_or.mp hreq
      cases hr : i.rst_i with
      | true =>
        have heffect := StepEffect.reset (s := s) (by simp [hresetNext, hl, hr])
        exact ⟨_, step_of_reset hhost hl hr, hdriven ▸ heffect⟩
      | false =>
        have hv : i.in_valid_i = false := by simpa [hr] using hreq
        have heffect := StepEffect.edge hlive (by simp [hresetNext, hr])
        rw [acceptedNext_of_idle hhost hl hv, hdriven] at heffect
        exact ⟨_, step_of_idle hhost hl hr hv, heffect⟩

theorem step_effect {s t : State} (h : step s = .next t) : StepEffect s t := by
  obtain ⟨u, hu, heffect⟩ := step_effect_exists s
  rw [h] at hu
  exact Host.Outcome.next.inj hu ▸ heffect

end Sys2Proof.Machine

namespace Sys2Proof

open Sys2Proof.Machine Sys2Proof.Spec

/-- Settles O40: the step's equations, and the decoder gives one instruction a word. -/
theorem stepRunsTheDecodedRequest : Obligations.StepRunsTheDecodedRequest := by
  refine ⟨fun s i rest ins hhost hdec => ⟨fun hreq => ?_, step_of_reset hhost, step_of_idle hhost⟩,
    fun s hhost => ⟨step_of_nil_combinational hhost, fun hl => ?_⟩⟩
  · rw [decode_reqWord] at hdec
    cases hdec
    exact step_of_request hhost hreq
  · rw [step_of_nil_registered hhost hl, State.driven_of_nil hhost]

/-- The ports that present a request word carry that word (R66). -/
@[simp] theorem Machine.Inputs.req_ofReq (req : ReqWord) : (Inputs.ofReq req).req = req :=
  packReq_fields req

/-- Settles O41: a placed request is a cycle with `in_valid_i` high and `rst_i` low, so its step runs it. -/
theorem placedRequestRunsNext : Obligations.PlacedRequestRunsNext := by
  intro s req ins hdec
  have hword : BitVec.ofNat 80 (req.toNat % 2 ^ 80) = req := by
    rw [Nat.mod_eq_of_lt req.isLt, BitVec.ofNat_toNat, BitVec.setWidth_eq]
  rw [decode_reqWord] at hdec
  cases hdec
  refine ⟨Inputs.ofReq req, Inputs.req_ofReq req, ?_⟩
  rw [State.withFetchWord, hword, step_of_request (i := Inputs.ofReq req) (rest := s.host) rfl (.inr ⟨rfl, rfl⟩),
    Inputs.req_ofReq]
  rfl

end Sys2Proof
end

section
/-! What every step and every instruction keeps (spec/10_state.md R24, spec/20_memory.md R47, spec/60_exceptions.md R201, R203,
spec/70_reset_and_hazards.md R232, R236): frames, the order of the responses, the recorded fault, and the invariant. -/

namespace Sys2Proof.Machine

open Sys2Proof.Spec

/-- A pipeline whose stages are all invalid has nothing in flight. -/
theorem State.inFlight_of_invalid {s : State} (h : ∀ x ∈ s.pipe, x = none) : s.inFlight = [] := by
  have hstages : s.pipe.dropLast.filterMap id = [] :=
    List.filterMap_eq_nil_iff.mpr fun x hx => h x (List.mem_of_mem_dropLast hx)
  rw [State.inFlight, hstages, List.reverse_nil]

/-- What an edge brings to the outputs and leaves in flight is what was in flight and what it accepts. -/
theorem arriving_append_inFlight (new : Option Response) (s : State) :
    (arriving new s.pipe).toList ++ (s.clock new).inFlight = s.inFlight ++ new.toList := by
  cases hp : s.pipe with
  | nil => simp [State.inFlight, hp]
  | cons x xs =>
    have hlast := getLast?_shiftPipe new (pipe := x :: xs) (by simp)
    have hsplit : (shiftPipe new (x :: xs)).dropLast ++ [arriving new (x :: xs)] = new :: (x :: xs).dropLast := by
      rw [← shiftPipe_cons]
      exact List.dropLast_append_getLast? _ hlast
    have hvalid := congrArg (fun l => (l.filterMap id).reverse) hsplit
    cases harr : arriving new (x :: xs) <;> cases new <;> simpa [State.inFlight, hp, harr] using hvalid

/-- An edge keeps the fault recorded (60_exceptions.md R201). -/
theorem State.clock_fault_of_some {s : State} {f : Fault} (h : s.fault = some f) (new : Option Response) :
    (s.clock new).fault = some f := by
  simp [h]

theorem State.finishSub_total (s : State) (r : Except Fault SubResult) : ∃ t, s.finishSub r = .next t := by
  rcases s.finishSub_cases r with ⟨v, -, h⟩ | ⟨f, -, h⟩
  · exact ⟨_, h⟩
  · exact ⟨_, h⟩

/-- No instruction stops the machine. -/
theorem exec_total (i : Instr) (s : State) : ∃ t, exec i s = .next t := by
  cases i with
  | encode val totBits expBits => exact ⟨_, rfl⟩
  | getbit pos word => exact s.finishSub_total _
  | getbitfld pos width word => exact s.finishSub_total _
  | setbit pos value word => exact s.finishSub_total _
  | setbitfld pos width value word => exact s.finishSub_total _
  | rebias e f expBits fracBits biasX =>
    rw [exec, execRebias]
    split
    · exact s.finishSub_total _
    · exact ⟨_, rfl⟩
  | adapt fw fracBits isNan =>
    rw [exec, execAdapt]
    split
    · exact s.finishSub_total _
    · exact ⟨_, rfl⟩

/-! The invariant `State.Inv`. -/

/-- The ports show a last stage with its valid bit (10_state.md R26). -/
theorem portsOf_shows (n : Nat) (last : Option Response) :
    (portsOf n last).out_valid_o = last.isSome ∧ ∀ r, last = some r → (portsOf n last).Carries r := by
  constructor
  · cases last with
    | none => rfl
    | some r => cases r <;> rfl
  · rintro r rfl
    exact portsOf_carries n r

/-- What a request is answered with is lawful (60_exceptions.md R200, R203). -/
theorem respond_lawful (params : Params) (draw val : Word) (totBits expBits : Byte) :
    (respond params draw val totBits expBits).Lawful := by
  by_cases h : DescriptorLegal totBits.toNat expBits.toNat
  · obtain ⟨r, hr⟩ := respond_eq_result_of_legal params draw val h
    rw [hr]
    trivial
  · obtain ⟨which, hr, hcheck⟩ := respond_of_illegal params draw val h
    rw [hr]
    exact hcheck

theorem acceptedNext_lawful {s : State} {r : Response} (h : (acceptedNext s).head? = some r) : r.Lawful := by
  unfold acceptedNext at h
  split at h
  · cases h
  · split at h
    · cases h
      exact respond_lawful ..
    · cases h

/-- An edge of a machine with a lawful record that accepts a lawful response meets the invariant, where at LATENCY = 0 the
response is the one to the input ports. -/
theorem State.inv_clock {s : State} {new : Option Response}
    (verdict : s.fault = s.responses.findSome? Response.faultOf)
    (given : ∀ r ∈ s.responses, r.Lawful) (coming : ∀ r, some r ∈ new :: s.pipe → r.Lawful)
    (presented : s.latency = 0 →
      ∃ n, new = some (respond s.params (Config.freeResult n) s.inp.val_i s.inp.tot_bits_i s.inp.exp_bits_i)) :
    (s.clock new).Inv where
  registered := by
    intro last hlast
    have hpipe : s.pipe ≠ [] := by
      intro hnil
      simp [hnil] at hlast
    rw [clock_pipe, getLast?_shiftPipe new hpipe] at hlast
    cases hlast
    exact portsOf_shows ..
  combinational := by
    intro hlat
    rw [clock_latency] at hlat
    obtain ⟨n, hn⟩ := presented hlat
    refine ⟨n, ?_⟩
    rw [clock_out, latency_eq_zero.mp hlat, arriving_nil, hn]
    exact portsOf_carries ..
  verdict := by
    rw [clock_fault, clock_responses, List.findSome?_append, verdict]
    cases arriving new s.pipe <;> simp
  lawful := by
    refine ⟨fun r hr => ?_, fun r hr => coming r (List.mem_of_mem_dropLast hr)⟩
    rw [clock_responses, List.mem_append, Option.mem_toList] at hr
    rcases hr with hold | harr
    · exact given r hold
    · exact coming r (harr ▸ arriving_mem new s.pipe)

theorem State.inv_resetEdge {s : State} (verdict : s.fault = s.responses.findSome? Response.faultOf)
    (given : ∀ r ∈ s.responses, r.Lawful) (hlat : s.latency ≠ 0) : s.resetEdge.Inv where
  registered := by
    intro last hlast
    obtain rfl : last = none := List.eq_of_mem_replicate (List.mem_of_getLast? hlast)
    exact portsOf_shows ..
  combinational := fun h => absurd h (by rwa [resetEdge_latency])
  verdict := by rwa [resetEdge_fault, resetEdge_responses]
  lawful := by
    refine ⟨by rwa [resetEdge_responses], fun r hr => ?_⟩
    rw [resetEdge_pipe] at hr
    cases List.eq_of_mem_replicate hr

theorem latency_ne_zero_of_resetNext {s : State} (h : resetNext s = true) : s.latency ≠ 0 := by
  cases hhost : s.host with
  | nil => simp [resetNext_of_nil hhost] at h
  | cons i rest =>
    rw [resetNext_of_cons hhost, Bool.and_eq_true, decide_eq_true_eq] at h
    exact h.1

end Sys2Proof.Machine

namespace Sys2Proof

open Sys2Proof.Machine Sys2Proof.Spec

/-- Settles O38: ENCODE is an edge, which adds at most what arrives to the responses. -/
theorem encodeFrame : Obligations.EncodeFrame := by
  intro val totBits expBits s t ht
  obtain rfl := Host.Outcome.next.inj ht
  refine ⟨rfl, rfl, rfl, rfl, s.clock_latency _, rfl, List.prefix_append _ _, ?_, fun f hf => s.clock_fault_of_some hf _⟩
  rw [State.clock_responses, List.length_append]
  exact Nat.add_le_add_left Option.length_toList_le _

/-- Settles O44: what an edge accepts enters what is given or in flight at its end. -/
theorem responsesLeaveInOrder : Obligations.ResponsesLeaveInOrder := by
  intro s t hstep hreset
  cases step_effect hstep with
  | held hhost => rw [acceptedNext_of_nil hhost, List.append_nil]
  | reset hreset' => simp [hreset] at hreset'
  | edge =>
    have horder := arriving_append_inFlight (acceptedNext s).head? s.driven
    rw [toList_head?_acceptedNext, State.driven_pipe] at horder
    rw [State.clock_responses, State.driven_responses, State.driven_pipe, List.append_assoc, horder, State.inFlight,
      State.driven_pipe, ← State.inFlight, List.append_assoc]

/-- Settles O45: a reset edge leaves invalid stages only, and what the outputs and the record get of `none`. -/
theorem resetClearsEveryValidBit : Obligations.ResetClearsEveryValidBit := by
  intro s t hstep hreset
  cases step_effect hstep with
  | held hhost => simp [resetNext_of_nil hhost] at hreset
  | edge _ hreset' => simp [hreset] at hreset'
  | reset =>
    have hinvalid : ∀ x ∈ s.driven.resetEdge.pipe, x = none := fun x hx => List.eq_of_mem_replicate hx
    exact ⟨hinvalid, by simp [State.latency], rfl, by simp, State.inFlight_of_invalid hinvalid, by simp⟩

/-- Settles O46: an edge, a reset edge and ENCODE keep a recorded fault, and so does each sub-function by its frame. -/
theorem recordedFaultIsNeverCleared : Obligations.RecordedFaultIsNeverCleared := by
  refine ⟨fun s t f hf hstep => ?_, fun i s t f hf ht => ?_⟩
  · cases step_effect hstep with
    | held => exact hf
    | edge => exact State.clock_fault_of_some (by rwa [State.driven_fault]) _
    | reset => rwa [State.resetEdge_fault, State.driven_fault]
  · by_cases hi : ∃ val totBits expBits, i = .encode val totBits expBits
    · obtain ⟨val, totBits, expBits, rfl⟩ := hi
      obtain rfl := Host.Outcome.next.inj ht
      exact State.clock_fault_of_some hf _
    · have hsub : ∀ val totBits expBits, i ≠ .encode val totBits expBits := fun v tb eb h => hi ⟨v, tb, eb, h⟩
      obtain ⟨-, -, -, -, -, -, hfault, -⟩ := subFunctionFrame i s t hsub ht
      rcases hfault with hsame | ⟨hnone, -⟩
      · rwa [hsame]
      · simp [hf] at hnone

/-- Settles O47: every step has one of its effects, and every instruction ends. -/
theorem theBlockAlwaysGoesOn : Obligations.TheBlockAlwaysGoesOn :=
  ⟨fun s => (step_effect_exists s).imp fun _ h => h.1, exec_total⟩

/-- Settles O48: an edge has as many stages as before, and driving the ports takes the head off the queue. -/
theorem parametersNeverChange : Obligations.ParametersNeverChange := by
  intro s t hstep
  cases step_effect hstep with
  | held hhost => simp [hhost]
  | edge => simp [State.latency]
  | reset => simp [State.latency]

/-- Settles O51: a state that is held keeps it, and an edge meets it on what was driven and accepted. -/
theorem stepKeepsTheInvariant : Obligations.StepKeepsTheInvariant := by
  intro s t hinv hstep
  obtain ⟨-, -, hverdict, hgiven, hcoming⟩ := id hinv
  cases step_effect hstep with
  | held => exact hinv
  | reset hreset =>
    exact State.inv_resetEdge (by simpa) (by simpa) (by simpa [State.latency] using latency_ne_zero_of_resetNext hreset)
  | edge hlive =>
    refine State.inv_clock (by simpa) (by simpa) (fun r hr => ?_) fun hlat => ?_
    · rcases List.mem_cons.mp hr with hnew | hold
      · exact acceptedNext_lawful hnew.symm
      · exact hcoming r (by simpa using hold)
    · rw [State.latency, State.driven_pipe, ← State.latency] at hlat
      obtain ⟨i, rest, hhost⟩ := List.exists_cons_of_ne_nil fun hnil => hlive hnil hlat
      exact ⟨s.draws, by rw [acceptedNext_of_request hhost (.inl hlat), State.driven_of_cons hhost]; rfl⟩

/-- The response to the input ports at reset, +0.0 at (3, 1), is the result 0. -/
theorem respond_reset (params : Params) (draw : Word) : respond params draw 0 3 1 = .result 0 :=
  (respond_of_legal draw 0 (by decide) (.inl (by decide))).trans (congrArg _ (by decide))

theorem resetWith_pipe_invalid (latency : Nat) (params : Params) :
    ∀ x ∈ (State.resetWith latency params).pipe, x = none :=
  fun _ hx => List.eq_of_mem_replicate hx

/-- Settles O52: after reset no stage is valid, and the outputs show the response to the input ports. -/
theorem resetMeetsTheInvariant : Obligations.ResetMeetsTheInvariant := by
  intro latency params
  refine ⟨fun last hlast => ?_, fun _ => ⟨0, ?_⟩, rfl, nofun, fun r hr => ?_⟩
  · obtain rfl := resetWith_pipe_invalid latency params last (List.mem_of_getLast? hlast)
    exact ⟨rfl, nofun⟩
  · exact (respond_reset _ _).symm ▸ ⟨rfl, rfl⟩
  · cases resetWith_pipe_invalid latency params _ hr

/-- Settles O53: the fields of the state after reset. -/
theorem resetState : Obligations.ResetState := by
  refine ⟨fun latency params => ?_, rfl, rfl, rfl, rfl, rfl⟩
  have hinvalid := resetWith_pipe_invalid latency params
  exact ⟨List.length_replicate, hinvalid, rfl, rfl, State.inFlight_of_invalid hinvalid, rfl, rfl⟩

end Sys2Proof
end

section
/-! Runs: `k` steps one after another (spec/20_memory.md R47, spec/70_reset_and_hazards.md R236, R238). Every step answers, so a
run of any length does. -/

namespace Sys2Proof.Machine

open Sys2Proof.Spec

theorem coreRun_succ {M : Host.Core} {s t : M.State} (h : M.step s = .next t) (k : Nat) :
    M.run (k + 1) s = M.run k t := by
  rw [Host.Core.run, h]

theorem run_succ {s t : State} (h : step s = .next t) (k : Nat) : core.run (k + 1) s = core.run k t :=
  coreRun_succ h k

theorem run_total (k : Nat) (s : State) : ∃ t, core.run k s = .next t := by
  induction k generalizing s with
  | zero => exact ⟨s, rfl⟩
  | succ k ih =>
    obtain ⟨t, ht, -⟩ := step_effect_exists s
    rw [run_succ ht]
    exact ih t

/-- A run splits after any number of its steps. -/
theorem run_add {m k : Nat} {s t : State} (h : core.run (m + k) s = .next t) :
    ∃ u, core.run m s = .next u ∧ core.run k u = .next t := by
  induction m generalizing s with
  | zero => exact ⟨s, rfl, by rwa [Nat.zero_add] at h⟩
  | succ m ih =>
    obtain ⟨u, hu, -⟩ := step_effect_exists s
    rw [Nat.add_right_comm, run_succ hu] at h
    rw [run_succ hu]
    exact ih h

/-- What every step keeps, every run keeps. -/
theorem run_keeps {P : State → Prop} (hstep : ∀ s t, P s → step s = .next t → P t) {k : Nat} {s t : State} (hs : P s)
    (h : core.run k s = .next t) : P t := by
  induction k generalizing s with
  | zero => exact Host.Outcome.next.inj h ▸ hs
  | succ k ih =>
    obtain ⟨u, hu, -⟩ := step_effect_exists s
    exact ih (hstep s u hs hu) ((run_succ hu k).symm.trans h)

theorem run_latency {k : Nat} {s t : State} (h : core.run k s = .next t) : t.latency = s.latency :=
  run_keeps (P := fun u => u.latency = s.latency) (fun u v hu hv => (parametersNeverChange u v hv).1.trans hu) rfl h

theorem run_host {k : Nat} {s t : State} (h : core.run k s = .next t) : t.host = s.host.drop k := by
  induction k generalizing s with
  | zero => exact Host.Outcome.next.inj h ▸ rfl
  | succ k ih =>
    obtain ⟨u, hu, -⟩ := step_effect_exists s
    obtain ⟨-, -, hhost⟩ := parametersNeverChange s u hu
    rw [ih ((run_succ hu k).symm.trans h), hhost, List.drop_tail]

/-! The end of a run: with nothing queued each step makes one more stage invalid, from the input side. -/

theorem step_drains {s t : State} {k : Nat} (hhost : s.host = []) (hfirst : ∀ x ∈ s.pipe.take k, x = none)
    (h : step s = .next t) : ∀ x ∈ t.pipe.take (k + 1), x = none := by
  intro x hx
  cases step_effect h with
  | held _ hlat => simp [State.latency_eq_zero.mp hlat] at hx
  | reset hreset => simp [resetNext_of_nil hhost] at hreset
  | edge =>
    rw [acceptedNext_of_nil hhost, State.clock_pipe, State.driven_pipe] at hx
    have hmem : x ∈ (none :: s.pipe).take (k + 1) := (List.dropLast_prefix _).take _ |>.subset hx
    rcases List.mem_cons.mp hmem with rfl | hold
    · rfl
    · exact hfirst x hold

theorem run_drains {s t : State} {j k : Nat} (hhost : s.host = []) (hfirst : ∀ x ∈ s.pipe.take j, x = none)
    (h : core.run k s = .next t) : ∀ x ∈ t.pipe.take (j + k), x = none := by
  induction k generalizing s j with
  | zero => exact Host.Outcome.next.inj h ▸ hfirst
  | succ k ih =>
    obtain ⟨u, hu, -⟩ := step_effect_exists s
    obtain ⟨-, -, huhost⟩ := parametersNeverChange s u hu
    rw [Nat.add_comm k, ← Nat.add_assoc]
    exact ih (by rw [huhost, hhost, List.tail_nil]) (step_drains hhost hfirst hu) ((run_succ hu k).symm.trans h)

/-- A run as long as the host's queue and LATENCY is over. -/
theorem run_over {s t : State} (h : core.run (s.host.length + s.latency) s = .next t) : t.RunOver := by
  obtain ⟨u, hqueue, hrest⟩ := run_add h
  have huhost : u.host = [] := by rw [run_host hqueue, List.drop_length]
  refine ⟨by rw [run_host hrest, huhost, List.drop_nil], State.inFlight_of_invalid fun x hx => ?_⟩
  have hinvalid := run_drains (j := 0) huhost (by simp) hrest
  rw [Nat.zero_add, ← run_latency h, State.latency, List.take_length] at hinvalid
  exact hinvalid x hx

/-! A response on its way: one stage a step, as long as reset stays low. -/

/-- The last stage's response is on the outputs, and is the last one given. -/
def State.ShowsLast (s : State) : Prop :=
  ∀ r, s.pipe.getLast? = some (some r) →
    s.out.out_valid_o = true ∧ s.out.Carries r ∧ s.responses.getLast? = some r

theorem State.showsLast_clock (new : Option Response) (s : State) : (s.clock new).ShowsLast := by
  intro r hr
  have hpipe : s.pipe ≠ [] := by
    intro hnil
    simp [hnil] at hr
  rw [clock_pipe, getLast?_shiftPipe new hpipe] at hr
  rw [clock_out, clock_responses, Option.some.inj hr]
  obtain ⟨hvalid, hcarries⟩ := portsOf_shows s.draws (some r)
  exact ⟨hvalid, hcarries r rfl, by simp⟩

/-- A registered step with reset low is an edge. -/
theorem step_edge_of_reset_low {s : State} (hlat : s.latency ≠ 0) (hlow : ∀ j ∈ s.host.take 1, j.rst_i = false) :
    step s = .next (s.driven.clock (acceptedNext s).head?) := by
  obtain ⟨t, ht, heffect⟩ := step_effect_exists s
  rw [ht]
  cases heffect with
  | held _ hzero => exact absurd hzero hlat
  | edge => rfl
  | reset hreset =>
    cases hhost : s.host with
    | nil => simp [resetNext_of_nil hhost] at hreset
    | cons i rest => simp [resetNext_of_cons hhost, hlow i (by simp [hhost])] at hreset

theorem take_tail {α : Type} (l : List α) (m : Nat) : l.tail.take m = (l.take (m + 1)).tail := by
  cases l <;> simp

/-- The response of stage `k` is on the outputs after as many steps as there are stages behind it. -/
theorem run_shows {m k : Nat} {s : State} {r : Response} (hstage : s.pipe[k]? = some (some r))
    (hbehind : s.latency = k + 1 + m) (hlow : ∀ j ∈ s.host.take m, j.rst_i = false) (hshows : s.ShowsLast) :
    ∃ t, core.run m s = .next t ∧ t.out.out_valid_o = true ∧ t.out.Carries r ∧ t.responses.getLast? = some r := by
  induction m generalizing s k with
  | zero =>
    have hlast : s.pipe.getLast? = some (some r) := by
      rw [List.getLast?_eq_getElem?, ← State.latency, hbehind]
      exact hstage
    exact ⟨s, rfl, hshows r hlast⟩
  | succ m ih =>
    have hstep := step_edge_of_reset_low (by omega) fun j hj =>
      hlow j ((List.take_prefix_take_left (by omega)).subset hj)
    rw [run_succ hstep]
    refine ih (k := k + 1) ?_ ?_ ?_ (State.showsLast_clock _ _)
    · rw [State.clock_pipe, State.driven_pipe, shiftPipe, List.getElem?_dropLast, List.getElem?_cons_succ, hstage]
      rw [State.latency] at hbehind
      exact if_pos (by simp; omega)
    · rw [State.clock_latency, State.latency, State.driven_pipe, ← State.latency, hbehind]
      omega
    · intro j hj
      rw [State.clock_host, State.driven_host, take_tail] at hj
      exact hlow j (List.mem_of_mem_tail hj)

/-! A run of requests with reset low: what is given, in flight and still queued, as responses, never changes. -/

/-- Under `masked` the free value has no part in a response (43_encode.md R175). -/
theorem respond_draw_of_masked {params : Params} (h : params.subnormExpPack = .masked) (draw draw' val : Word)
    (totBits expBits : Byte) :
    respond params draw val totBits expBits = respond params draw' val totBits expBits := by
  simp only [respond_eq, h, or_true, if_true]

/-- The response to the request a cycle presents; the draw is any, for use under `masked`. -/
def responseTo (params : Params) (i : Inputs) : Response :=
  respond params 0 i.val_i i.tot_bits_i i.exp_bits_i

/-- The responses given, in flight, and to come for what the host has queued. -/
def State.allResponses (s : State) : List Response :=
  s.responses ++ s.inFlight ++ s.host.map (responseTo s.params)

/-- P_SUBNORM_EXP_PACK is `masked`, and every cycle the host has queued presents a request. -/
structure State.OnlyRequests (s : State) : Prop where
  masked   : s.params.subnormExpPack = .masked
  requests : ∀ i ∈ s.host, i.rst_i = false ∧ i.in_valid_i = true

theorem acceptedNext_append_map {s : State} (h : s.OnlyRequests) :
    acceptedNext s ++ s.host.tail.map (responseTo s.params) = s.host.map (responseTo s.params) := by
  cases hhost : s.host with
  | nil => rw [acceptedNext_of_nil hhost]; rfl
  | cons i rest =>
    have hi := h.requests i (by simp [hhost])
    rw [acceptedNext_of_request hhost (.inr hi), respond_draw_of_masked h.masked _ 0]
    rfl

theorem resetNext_of_onlyRequests {s : State} (h : s.OnlyRequests) : resetNext s = false := by
  cases hhost : s.host with
  | nil => exact resetNext_of_nil hhost
  | cons i rest =>
    obtain ⟨hr, -⟩ := h.requests i (by simp [hhost])
    rw [resetNext_of_cons hhost, hr, Bool.and_false]

theorem step_keeps_allResponses {s t : State} (h : s.OnlyRequests) (hstep : step s = .next t) :
    t.OnlyRequests ∧ t.allResponses = s.allResponses := by
  obtain ⟨-, hparams, hhost⟩ := parametersNeverChange s t hstep
  have horder := responsesLeaveInOrder s t hstep (resetNext_of_onlyRequests h)
  refine ⟨⟨hparams ▸ h.masked, fun i hi => h.requests i (List.mem_of_mem_tail (hhost ▸ hi))⟩, ?_⟩
  rw [State.allResponses, State.allResponses, horder, hparams, hhost, List.append_assoc, acceptedNext_append_map h]

/-- A run of requests alone ends with one response for each, at every LATENCY, and the fault its responses report first. -/
theorem run_requests {s t : State} (h : s.OnlyRequests) (hinv : s.Inv)
    (hrun : core.run (s.host.length + s.latency) s = .next t) :
    t.responses = s.allResponses ∧ t.fault = t.responses.findSome? Response.faultOf := by
  obtain ⟨hhost, hflight⟩ := run_over hrun
  obtain ⟨-, hall⟩ := run_keeps (P := fun u => u.OnlyRequests ∧ u.allResponses = s.allResponses)
    (fun u v hu hv => (step_keeps_allResponses hu.1 hv).imp_right fun hkeep => hkeep.trans hu.2) ⟨h, rfl⟩ hrun
  rw [State.allResponses, hflight, hhost, List.map_nil, List.append_nil, List.append_nil] at hall
  exact ⟨hall, (run_keeps stepKeepsTheInvariant hinv hrun).verdict⟩

end Sys2Proof.Machine

namespace Sys2Proof

open Sys2Proof.Machine Sys2Proof.Spec

/-- Settles O49: the queue empties, and then LATENCY steps drain the pipeline. -/
theorem everyRunEnds : Obligations.EveryRunEnds := fun s =>
  (run_total _ s).imp fun _ h => ⟨h, run_over h⟩

/-- Settles O43: the step that accepts the request puts its response into the first stage, and it moves on from there. -/
theorem responseComesAfterLatency : Obligations.ResponseComesAfterLatency := by
  intro s i rest hhost hlat hr hv hlow
  obtain ⟨m, hm⟩ := Nat.exists_eq_succ_of_ne_zero hlat
  have hstep := step_edge_of_reset_low hlat (by simpa [hhost] using hr)
  rw [acceptedNext_of_request hhost (.inr ⟨hr, hv⟩), List.head?_cons, State.driven_of_cons hhost] at hstep
  obtain ⟨x, xs, hpipe⟩ := List.exists_cons_of_ne_nil (mt State.latency_eq_zero.mpr hlat)
  obtain ⟨t, hrun, hshows⟩ := run_shows (m := m) (k := 0) (s := (s.present i rest).clock _)
    (by rw [State.clock_pipe, State.present_pipe, hpipe]; rfl)
    (by rw [State.clock_latency, State.present_latency, hm, Nat.succ_eq_add_one]; omega)
    (by rwa [hm] at hlow) (State.showsLast_clock _ _)
  exact ⟨t, _, by rw [hm]; exact (run_succ hstep m).trans hrun, answers_respond .., hshows⟩

/-- The state after reset whose host is about to present these cycles. -/
def resetWithQueue (latency : Nat) (params : Params) (queue : List Inputs) : State :=
  { State.resetWith latency params with host := queue }

/-- The invariant does not speak of the queue. -/
theorem resetWithQueue_inv (latency : Nat) (params : Params) (queue : List Inputs) :
    (resetWithQueue latency params queue).Inv :=
  have hinv := resetMeetsTheInvariant latency params
  ⟨hinv.registered, hinv.combinational, hinv.verdict, hinv.lawful⟩

theorem resetWithQueue_allResponses (latency : Nat) (params : Params) (queue : List Inputs) :
    (resetWithQueue latency params queue).allResponses = queue.map (responseTo params) := by
  have hflight : (resetWithQueue latency params queue).inFlight = [] :=
    State.inFlight_of_invalid (resetWith_pipe_invalid latency params)
  rw [State.allResponses, hflight]
  rfl

/-- From reset a run of requests gives one response for each, the same at every LATENCY. -/
theorem run_requests_from_reset {params : Params} {requests : List Inputs} (latency : Nat)
    (hmasked : params.subnormExpPack = .masked) (hreq : ∀ i ∈ requests, i.rst_i = false ∧ i.in_valid_i = true) :
    ∃ t, core.run (requests.length + latency) (resetWithQueue latency params requests) = .next t ∧
      t.responses = requests.map (responseTo params) ∧ t.fault = t.responses.findSome? Response.faultOf := by
  obtain ⟨t, hrun⟩ := run_total (requests.length + latency) (resetWithQueue latency params requests)
  have hlat : (resetWithQueue latency params requests).latency = latency := List.length_replicate
  obtain ⟨hresponses, hfault⟩ := run_requests ⟨hmasked, hreq⟩ (resetWithQueue_inv latency params requests)
    (by rw [hlat]; exact hrun)
  exact ⟨t, hrun, hresponses.trans (resetWithQueue_allResponses ..), hfault⟩

/-- Settles O50: both runs give the responses to the requests, and so the same fault first. -/
theorem responsesDoNotDependOnLatency : Obligations.ResponsesDoNotDependOnLatency := by
  intro n params requests hmasked hreq
  obtain ⟨t, ht, htresp, htfault⟩ := run_requests_from_reset 0 hmasked hreq
  obtain ⟨u, hu, huresp, hufault⟩ := run_requests_from_reset n hmasked hreq
  exact ⟨t, u, ht, hu, by rw [htresp, huresp], by rw [htfault, hufault, htresp, huresp], by rw [htresp, List.length_map]⟩

end Sys2Proof
end

section
/-! The two stages on every operand (spec/41_exponent_rebias.md R123, R129, R131, R132, spec/42_fraction_adapter.md R155): the
range of REBIAS's exponent, case 3c, the range of ADAPT's fraction, and the operands of no legal descriptor. -/

namespace Sys2Proof.Machine

/-- The exponent of case 1b is negative for expBits of at most 10 (41_exponent_rebias.md R132). -/
theorem subnormalExp_negative {expBits : Nat} (h : expBits ≤ 10) :
    -1022 ≤ 1 - 1023 + (biasOf expBits : Int) ∧ 1 - 1023 + (biasOf expBits : Int) < 0 := by
  have hlow : 2 ^ (expBits - 1) ≤ 2 ^ 9 := Nat.pow_le_pow_right (by decide) (by omega)
  rw [biasOf]
  omega

/-- From 11 on it fits its field. -/
theorem subnormalExp_fits {expBits : Nat} (h : 11 ≤ expBits) : ExpFits (1 - 1023 + (biasOf expBits : Int)) expBits := by
  have hhigh : 2 ^ 10 ≤ 2 ^ (expBits - 1) := Nat.pow_le_pow_right (by decide) (by omega)
  have hfield : (2 : Int) ^ expBits = 2 * 2 ^ (expBits - 1) := by
    rw [← pow_succ', Nat.sub_add_cancel (by omega)]
  rw [ExpFits, biasOf_cast, hfield]
  zify at hhigh
  omega

theorem expFits_zero (expBits : Nat) : ExpFits 0 expBits := by
  have hpow : (0 : Int) < 2 ^ expBits := by positivity
  exact ⟨le_rfl, by omega⟩

theorem expFits_allOnes (expBits : Nat) : ExpFits (2 ^ expBits - 1) expBits := by
  have hpow : (0 : Int) < 2 ^ expBits := by positivity
  exact ⟨by omega, le_rfl⟩

/-- Outside case 1b with expBits of at most 10 the exponent fits its field (41_exponent_rebias.md R131, R135). -/
theorem rebias_expFits {e : BitVec 11} {f : BitVec 52} {expBits : Nat} (fracBits : Nat)
    (h : ¬ (e.toNat = 0 ∧ f ≠ 0 ∧ expBits ≤ 10)) :
    ExpFits (rebias e f expBits fracBits (biasOf expBits)).newExp expBits := by
  rcases Nat.eq_zero_or_pos e.toNat with he | hlo
  · by_cases hf : f = 0
    · rw [rebias_of_zero _ _ _ he hf]
      exact expFits_zero expBits
    · rw [rebias_of_subnormal _ _ _ he hf]
      exact subnormalExp_fits (by by_contra hexp; exact h ⟨he, hf, by omega⟩)
  by_cases hhi : e.toNat = 2047
  · by_cases hf : f = 0
    · rw [rebias_of_infinity _ _ _ hhi hf]
      exact expFits_allOnes expBits
    · rw [rebias_of_nan _ _ _ hhi hf]
      exact expFits_allOnes expBits
  have hhi : e.toNat ≤ 2046 := by have := e.isLt; omega
  rcases le_or_gt ((2 : Int) ^ expBits) (rebiasedExp e (biasOf expBits)) with hover | hbelow
  · rw [rebias_of_overflow f hlo hhi hover]
    exact expFits_allOnes expBits
  rcases lt_or_ge 0 (rebiasedExp e (biasOf expBits)) with hpos | hsub
  · rw [rebias_of_inRange f hlo hhi hpos (by omega)]
    exact ⟨hpos.le, by dsimp only; omega⟩
  rcases lt_or_ge (rebiasedExp e (biasOf expBits)) (-(fracBits : Int)) with hflush | hkeep
  · rw [rebias_of_flush f hlo hhi hflush]
    exact expFits_zero expBits
  · rw [rebias_of_targetSubnormal f hlo hhi hkeep hsub]
    exact expFits_zero expBits

end Sys2Proof.Machine

namespace Sys2Proof

open Sys2Proof.Machine Sys2Proof.Spec

/-- Settles O17: case 3c, whose shift loses no bit to the 52-bit domain. -/
theorem targetSubnormalShiftsTheSignificand : Obligations.TargetSubnormalShiftsTheSignificand := by
  refine ⟨fun e f expBits fracBits biasX s h hlo hhi h1 h2 => ?_, fun s => ⟨rfl, rfl, rfl, rfl⟩⟩
  exact ⟨_, exec_rebias_of_legal s h (rebias_of_targetSubnormal f hlo hhi h1 h2),
    (subnormalShift_toNat f h2).trans (widePattern_of_subnormal h2 _)⟩

/-- Settles O19: in case 1b the exponent is that of `biasOf`, and in every other it fits. -/
theorem rebiasedExponentRange : Obligations.RebiasedExponentRange := by
  intro e f expBits fracBits biasX s h
  obtain ⟨-, rfl⟩ := id h
  let r := rebias e f expBits fracBits (biasOf expBits)
  refine ⟨r.newExp, r.fw, r.isNan, exec_rebias_of_legal s h rfl, ?_, fun hother => rebias_expFits fracBits ?_⟩
  · rintro ⟨rfl, hf, hexp⟩
    have hr : r = ⟨1 - 1023 + (biasOf expBits : Int), f, false⟩ := rebias_of_subnormal _ _ _ rfl hf
    rw [hr]
    exact subnormalExp_negative hexp
  · rwa [← BitVec.toNat_zero (w := 11), BitVec.toNat_inj]

/-- Settles O20: off their domains both sub-functions put out free values. -/
theorem operandsOffDomainGiveFreeValues : Obligations.OperandsOffDomainGiveFreeValues := by
  refine ⟨fun e f expBits fracBits biasX s h => ?_, fun fw fracBits isNan s h => ?_⟩
  · rw [exec, execRebias, if_neg h, State.finishSubFree]
  · rw [exec, execAdapt, if_neg (by omega), State.finishSubFree]

/-- Settles O24: `adapt`'s fraction is below `2^fracBits`. -/
theorem adaptedFractionFits : Obligations.AdaptedFractionFits :=
  fun fw _ isNan s hlo hhi => ⟨_, exec_adapt_of_legal fw isNan s ⟨hlo, hhi⟩, adapt_lt fw isNan hhi⟩

end Sys2Proof
end

section
/-! ENCODE's result in every case (spec/43_encode.md R174 to R180): the table of cases, the bits around the window, and where
the two parameters matter. -/

namespace Sys2Proof.Machine

open Sys2Proof.Spec

/-- P_SUBNORM_EXP_PACK does not matter to this request, or is `masked` (43_encode.md R175). -/
abbrev PackingDecided (params : Params) (val : Word) (expBits : Byte) : Prop :=
  params.subnormExpPack = .masked ∨ ¬ Subnormal val ∨ 11 ≤ expBits.toNat

theorem extractedFrac_eq_zero_iff (val : Word) : extractedFrac val = 0 ↔ fraction val = 0 := by
  rw [← extractedFrac_toNat, ← BitVec.toNat_inj]
  rfl

/-- The exponent fits in every case but 1b with expBits of at most 10. -/
theorem stage1_expFits {val : Word} (totBits : Byte) {expBits : Byte} (h : ¬ Subnormal val ∨ 11 ≤ expBits.toNat) :
    ExpFits (stage1 val totBits expBits).newExp expBits.toNat := by
  refine rebias_expFits _ fun ⟨he, hf, hexp⟩ => ?_
  rw [extractedExp_toNat] at he
  rw [Ne, extractedFrac_eq_zero_iff] at hf
  rcases h with hnormal | hwide
  · exact hnormal ⟨he, hf⟩
  · omega

/-- ENCODE's result on a legal descriptor, wherever P_SUBNORM_EXP_PACK lets a claim be made. -/
theorem answers_packed_of_decided {val : Word} {totBits expBits : Byte} (s : State)
    (h : DescriptorLegal totBits.toNat expBits.toNat) (hp : PackingDecided s.params val expBits) :
    Answers val totBits expBits s (.result (packed val totBits expBits)) := by
  rw [Answers, exec, execEncode, respond_of_legal _ _ h (hp.symm.imp_left (stage1_expFits totBits))]

/-- The low expBits bits of an exponent that fits are the exponent (43_encode.md R175). -/
theorem packExp_eq_emod (newExp : Int) (expBits : Nat) : packExp newExp expBits = (newExp % 2 ^ expBits).toNat := by
  rw [packExp]
  split
  · next h => rw [Int.emod_eq_of_lt h.1 (by have := h.2; omega)]
  · rfl

theorem packExp_of_fits {newExp : Int} {expBits : Nat} (h : ExpFits newExp expBits) :
    packExp newExp expBits = newExp.toNat :=
  if_pos h

theorem packExp_zero (expBits : Nat) : packExp 0 expBits = 0 :=
  packExp_of_fits (expFits_zero expBits)

theorem packExp_allOnes (expBits : Nat) : packExp (2 ^ expBits - 1) expBits = 2 ^ expBits - 1 := by
  rw [packExp_of_fits (expFits_allOnes expBits), ← maxExpOf_cast, Int.toNat_natCast, maxExpOf]

/-- The two fields of a result from what stage 1 gives. -/
theorem fields_of_stage1 {val : Word} {totBits expBits : Byte} {newExp : Int} {fw : BitVec 52} {isNan : Bool}
    (h : DescriptorLegal totBits.toNat expBits.toNat) (hr : stage1 val totBits expBits = ⟨newExp, fw, isNan⟩) :
    packExp (stage1 val totBits expBits).newExp expBits.toNat = packExp newExp expBits.toNat ∧
      (stage2 val totBits expBits).toNat =
        if isNan then 2 ^ fracBits totBits expBits - 1 else adapted (fracBits totBits expBits) fw.toNat := by
  obtain ⟨-, -, -, -, -, hfrac, -⟩ := h.bounds
  rw [stage2, hr]
  exact ⟨rfl, adapt_toNat fw isNan hfrac⟩

section
variable {e f : Nat} (fracBits expBits : Nat)

/-! The table of cases, a row at a time (43_encode.md R179). -/

theorem fields_of_zero : exponentField fracBits expBits 0 0 = 0 ∧ fractionField fracBits expBits 0 0 = 0 :=
  ⟨rfl, adapted_zero fracBits⟩

theorem fields_of_subnormal (hf : f ≠ 0) :
    exponentField fracBits expBits 0 f = (((2 : Int) ^ (expBits - 1) - 1023) % 2 ^ expBits).toNat ∧
      fractionField fracBits expBits 0 f = adapted fracBits f := by
  simp [exponentField, fractionField, hf]

theorem fields_of_special :
    exponentField fracBits expBits 2047 f = 2 ^ expBits - 1 ∧
      fractionField fracBits expBits 2047 f = if f = 0 then 0 else 2 ^ fracBits - 1 := by
  simp [exponentField, fractionField]

section
variable {expBits} (hlo : 1 ≤ e) (hhi : e ≤ 2046)
include hlo hhi

theorem fields_of_overflow (h : (2 : Int) ^ expBits ≤ ne0 expBits e) :
    exponentField fracBits expBits e f = 2 ^ expBits - 1 ∧ fractionField fracBits expBits e f = 0 := by
  simp [exponentField, fractionField, h, show e ≠ 0 by omega, show e ≠ 2047 by omega]

theorem fields_of_flush (h : ne0 expBits e < -(fracBits : Int)) :
    exponentField fracBits expBits e f = 0 ∧ fractionField fracBits expBits e f = 0 := by
  have hpow : (0 : Int) < 2 ^ expBits := by positivity
  simp [exponentField, fractionField, h, show e ≠ 0 by omega, show e ≠ 2047 by omega,
    show ¬ (2 : Int) ^ expBits ≤ ne0 expBits e by omega]

theorem fields_of_targetSubnormal (h1 : -(fracBits : Int) ≤ ne0 expBits e) (h2 : ne0 expBits e ≤ 0) :
    exponentField fracBits expBits e f = 0 ∧
      fractionField fracBits expBits e f = adapted fracBits (widePattern (ne0 expBits e) f) := by
  have hpow : (0 : Int) < 2 ^ expBits := by positivity
  simp [exponentField, fractionField, h1.not_gt, h2, show e ≠ 0 by omega, show e ≠ 2047 by omega,
    show ¬ (2 : Int) ^ expBits ≤ ne0 expBits e by omega, widePattern_of_subnormal h2]

theorem fields_of_inRange (h1 : 1 ≤ ne0 expBits e) (h2 : ne0 expBits e ≤ 2 ^ expBits - 1) :
    exponentField fracBits expBits e f = (ne0 expBits e).toNat ∧
      fractionField fracBits expBits e f = adapted fracBits f := by
  simp [exponentField, fractionField, show e ≠ 0 by omega, show e ≠ 2047 by omega,
    show ¬ (2 : Int) ^ expBits ≤ ne0 expBits e by omega, show ¬ ne0 expBits e < -(fracBits : Int) by omega,
    show ¬ ne0 expBits e ≤ 0 by omega]

end
end

/-! The two stages give the fields of the table, in each of its cases. -/

section
variable {val : Word} {totBits expBits : Byte}

/-- The two stages compute the exponent and the fraction field of the table. -/
structure StagesFollowTable (val : Word) (totBits expBits : Byte) : Prop where
  exp  : packExp (stage1 val totBits expBits).newExp expBits.toNat
    = exponentField (fracBits totBits expBits) expBits.toNat (exponent val) (fraction val)
  frac : (stage2 val totBits expBits).toNat
    = fractionField (fracBits totBits expBits) expBits.toNat (exponent val) (fraction val)

variable (h : DescriptorLegal totBits.toNat expBits.toNat)
include h

/-- Cases 1a and 1b. -/
theorem stagesFollowTable_of_zeroExponent (he : exponent val = 0) : StagesFollowTable val totBits expBits := by
  have hexp : (extractedExp val).toNat = 0 := (extractedExp_toNat val).trans he
  by_cases hf : fraction val = 0
  · obtain ⟨h1, h2⟩ := fields_of_stage1 h (rebias_of_zero _ _ _ hexp ((extractedFrac_eq_zero_iff val).mpr hf))
    obtain ⟨t1, t2⟩ := fields_of_zero (fracBits totBits expBits) expBits.toNat
    exact ⟨by rw [h1, he, hf, t1, packExp_zero], by rw [h2, he, hf, t2]; exact adapted_zero _⟩
  · obtain ⟨h1, h2⟩ := fields_of_stage1 h (rebias_of_subnormal _ _ _ hexp (extractedFrac_ne_zero hf))
    obtain ⟨t1, t2⟩ := fields_of_subnormal (fracBits totBits expBits) expBits.toNat hf
    have hbias : 1 - 1023 + (biasOf expBits.toNat : Int) = 2 ^ (expBits.toNat - 1) - 1023 := by
      rw [biasOf_cast]
      ring
    exact ⟨by rw [h1, he, t1, packExp_eq_emod, hbias], by rw [h2, he, t2, extractedFrac_toNat]; rfl⟩

/-- Cases 2a and 2b. -/
theorem stagesFollowTable_of_special (he : exponent val = 2047) : StagesFollowTable val totBits expBits := by
  have hexp : (extractedExp val).toNat = 2047 := (extractedExp_toNat val).trans he
  obtain ⟨t1, t2⟩ := fields_of_special (f := fraction val) (fracBits totBits expBits) expBits.toNat
  by_cases hf : fraction val = 0
  · obtain ⟨h1, h2⟩ := fields_of_stage1 h (rebias_of_infinity _ _ _ hexp ((extractedFrac_eq_zero_iff val).mpr hf))
    exact ⟨by rw [h1, he, t1, packExp_allOnes], by rw [h2, he, t2, if_pos hf]; exact adapted_zero _⟩
  · obtain ⟨h1, h2⟩ := fields_of_stage1 h (rebias_of_nan _ _ _ hexp (extractedFrac_ne_zero hf))
    exact ⟨by rw [h1, he, t1, packExp_allOnes], by rw [h2, he, t2, if_neg hf]; rfl⟩

/-- Cases 3a to 3d. -/
theorem stagesFollowTable_of_normal (hn : Normal val) : StagesFollowTable val totBits expBits := by
  obtain ⟨hlo, hhi⟩ := id hn
  obtain ⟨helo, hehi⟩ := normal_extractedExp hn
  have hfrac := extractedFrac_toNat val
  have hne := rebiasedExp_extractedExp val expBits.toNat
  rcases le_or_gt ((2 : Int) ^ expBits.toNat) (ne0 expBits.toNat (exponent val)) with hover | hbelow
  · obtain ⟨h1, h2⟩ := fields_of_stage1 h (rebias_of_overflow (extractedFrac val) helo hehi (hne ▸ hover))
    obtain ⟨t1, t2⟩ := fields_of_overflow (f := fraction val) (fracBits totBits expBits) hlo hhi hover
    exact ⟨by rw [h1, t1, packExp_allOnes], by rw [h2, t2]; exact adapted_zero _⟩
  rcases lt_or_ge 0 (ne0 expBits.toNat (exponent val)) with hpos | hsub
  · have hfits : ne0 expBits.toNat (exponent val) ≤ 2 ^ expBits.toNat - 1 := by omega
    obtain ⟨h1, h2⟩ := fields_of_stage1 h
      (rebias_of_inRange (extractedFrac val) helo hehi (hne ▸ hpos) (hne ▸ hfits))
    obtain ⟨t1, t2⟩ := fields_of_inRange (f := fraction val) (fracBits totBits expBits) hlo hhi hpos hfits
    exact ⟨by rw [h1, t1, hne, packExp_of_fits ⟨hpos.le, hfits⟩], by rw [h2, t2, hfrac]; rfl⟩
  rcases lt_or_ge (ne0 expBits.toNat (exponent val)) (-(fracBits totBits expBits : Int)) with hflush | hkeep
  · obtain ⟨h1, h2⟩ := fields_of_stage1 h (rebias_of_flush (extractedFrac val) helo hehi (hne ▸ hflush))
    obtain ⟨t1, t2⟩ := fields_of_flush (f := fraction val) (fracBits totBits expBits) hlo hhi hflush
    exact ⟨by rw [h1, t1, packExp_zero], by rw [h2, t2]; exact adapted_zero _⟩
  · obtain ⟨h1, h2⟩ := fields_of_stage1 h
      (rebias_of_targetSubnormal (extractedFrac val) helo hehi (hne ▸ hkeep) (hne ▸ hsub))
    obtain ⟨t1, t2⟩ := fields_of_targetSubnormal (f := fraction val) (fracBits totBits expBits) hlo hhi hkeep hsub
    exact ⟨by rw [h1, t1, packExp_zero], by rw [h2, t2, hne, subnormalShift_toNat _ hsub, hfrac]; rfl⟩

/-- Every pattern is a zero or subnormal, an infinity or NaN, or normal (30_encoding.md R61). -/
theorem stagesFollowTable : StagesFollowTable val totBits expBits := by
  by_cases hzero : exponent val = 0
  · exact stagesFollowTable_of_zeroExponent h hzero
  by_cases hspecial : exponent val = 2047
  · exact stagesFollowTable_of_special h hspecial
  have hlt : exponent val < 2 ^ 11 := Nat.mod_lt _ (by decide)
  exact stagesFollowTable_of_normal h ⟨by omega, by omega⟩

end

theorem packed_toNat_eq_encoded (val : Word) {totBits expBits : Byte}
    (h : DescriptorLegal totBits.toNat expBits.toNat) :
    (packed val totBits expBits).toNat = encoded val totBits expBits := by
  obtain ⟨hexp, hfrac⟩ := stagesFollowTable (val := val) h
  rw [packed_toNat val h, hexp, hfrac, encoded]

/-! The packed accumulator bit by bit: its lower two writes stop below the sign bit. -/

theorem packed_getLsbD_of_ge (val : Word) {totBits expBits : Byte} (h : DescriptorLegal totBits.toNat expBits.toNat)
    {j : Nat} (hj : totBits.toNat - 1 ≤ j) :
    (packed val totBits expBits).getLsbD j =
      (writeBits (totBits.toNat - 1) 1 (extractedSign val).toNat 0).getLsbD j := by
  obtain ⟨-, htot, -, -, -, -, hsum⟩ := h.bounds
  rw [packed, writeBits_getLsbD (by omega), if_neg (by omega), writeBits_getLsbD (by omega), if_neg (by omega)]

theorem packed_getLsbD_above (val : Word) {totBits expBits : Byte} (h : DescriptorLegal totBits.toNat expBits.toNat)
    {j : Nat} (hj : totBits.toNat ≤ j) : (packed val totBits expBits).getLsbD j = false := by
  obtain ⟨-, htot, -, -, -, -, hsum⟩ := h.bounds
  rw [packed_getLsbD_of_ge val h (by omega), writeBits_getLsbD (by omega), if_neg (by omega)]
  exact BitVec.getLsbD_zero

theorem packed_getLsbD_sign (val : Word) {totBits expBits : Byte} (h : DescriptorLegal totBits.toNat expBits.toNat) :
    (packed val totBits expBits).getLsbD (totBits.toNat - 1) = val.getLsbD 63 := by
  obtain ⟨-, htot, -, -, -, -, hsum⟩ := h.bounds
  rw [packed_getLsbD_of_ge val h le_rfl, writeBits_getLsbD (by omega), if_pos (by omega), Nat.sub_self,
    lowBits_testBit Nat.one_pos, toNat_parity, extractedSign, readBits_one_setWidth]
  simp

/-! What the parameters and the state have to do with a response. -/

/-- A response depends on P_SUBNORM_EXP_PACK, never on P_BITRANGE (40_bitfield.md R106). -/
theorem respond_congr {params params' : Params} (h : params.subnormExpPack = params'.subnormExpPack) (draw val : Word)
    (totBits expBits : Byte) :
    respond params draw val totBits expBits = respond params' draw val totBits expBits := by
  simp only [respond_eq, h]

/-- Under `any` the response is the draw where the exponent does not fit (43_encode.md R175). -/
theorem respond_of_unfit {params : Params} (draw val : Word) {totBits expBits : Byte}
    (h : DescriptorLegal totBits.toNat expBits.toNat)
    (hfit : ¬ ExpFits (stage1 val totBits expBits).newExp expBits.toNat) (hany : params.subnormExpPack = .any) :
    respond params draw val totBits expBits = .result draw := by
  rw [respond_eq, checkDescriptor_of_legal h]
  exact if_neg (by simp only [hfit, hany, reduceCtorEq, or_self, not_false_eq_true])

/-- A subnormal's exponent does not fit an expBits of at most 10. -/
theorem stage1_not_expFits {val : Word} {totBits expBits : Byte} (hsub : Subnormal val) (hexp : expBits.toNat ≤ 10) :
    ¬ ExpFits (stage1 val totBits expBits).newExp expBits.toNat := by
  obtain ⟨he, hf⟩ := hsub
  have hr : stage1 val totBits expBits = ⟨1 - 1023 + (biasOf expBits.toNat : Int), extractedFrac val, false⟩ :=
    rebias_of_subnormal _ _ _ ((extractedExp_toNat val).trans he) (extractedFrac_ne_zero hf)
  rw [hr]
  exact fun hfits => absurd hfits.1 (subnormalExp_negative hexp).2.not_ge

/-! The format (64, 11) is binary64's (43_encode.md R180). -/

/-- A binary64 pattern is its three fields. -/
theorem toNat_eq_fields (val : Word) : val.toNat = sign val * 2 ^ 63 + exponent val * 2 ^ 52 + fraction val := by
  simp only [sign, exponent, fraction]
  omega

theorem ne0_binary64 (e : Nat) : ne0 11 e = e := by
  rw [ne0]
  omega

theorem adapted_52 (f : Nat) : adapted 52 f = f := by
  rw [adapted_of_wide f le_rfl, Nat.sub_self, pow_zero, Nat.mul_one]

/-- At (64, 11) the fields are the input's but for a subnormal's exponent and a NaN's fraction. -/
theorem encoded_binary64 {val : Word} (hsub : ¬ Subnormal val) (hnan : ¬ (exponent val = 2047 ∧ fraction val ≠ 0)) :
    encoded val 64 11 = val.toNat := by
  have hfields : exponentField 52 11 (exponent val) (fraction val) = exponent val ∧
      fractionField 52 11 (exponent val) (fraction val) = fraction val := by
    by_cases hzero : exponent val = 0
    · have hf : fraction val = 0 := by by_contra hf; exact hsub ⟨hzero, hf⟩
      rw [hzero, hf]
      exact fields_of_zero 52 11
    by_cases hspecial : exponent val = 2047
    · have hf : fraction val = 0 := by by_contra hf; exact hnan ⟨hspecial, hf⟩
      rw [hspecial, hf]
      exact fields_of_special 52 11
    · have hlt : exponent val < 2 ^ 11 := Nat.mod_lt _ (by decide)
      have hne := ne0_binary64 (exponent val)
      obtain ⟨h1, h2⟩ := fields_of_inRange (e := exponent val) (f := fraction val) (expBits := 11) 52 (by omega) (by omega)
        (by omega) (by omega)
      rw [h1, h2, hne, adapted_52]
      exact ⟨rfl, rfl⟩
  obtain ⟨h1, h2⟩ := hfields
  rw [toNat_eq_fields]
  exact congrArg₂ (fun E F => sign val * 2 ^ 63 + E * 2 ^ 52 + F) h1 h2

theorem encoded_binary64_of_subnormal {val : Word} (h : Subnormal val) : encoded val 64 11 = val.toNat + 2 ^ 52 := by
  obtain ⟨he, hf⟩ := h
  obtain ⟨h1, h2⟩ := fields_of_subnormal 52 11 hf
  rw [adapted_52] at h2
  rw [toNat_eq_fields, he, Nat.zero_mul, Nat.add_zero, Nat.add_right_comm, encoded, he]
  exact congrArg₂ (fun E F => sign val * 2 ^ 63 + E * 2 ^ 52 + F) h1 h2

/-- A result is its number. -/
theorem answers_of_gives {val r : Word} {totBits expBits : Byte} {s : State} (h : Gives val totBits expBits s r.toNat) :
    Answers val totBits expBits s (.result r) := by
  obtain ⟨r', hanswers, hr⟩ := h
  rwa [← BitVec.eq_of_toNat_eq hr]

/-- Where case 3b flushes, and already at `ne0 = −fracBits`, the significand's leading 1 is shifted out too
(42_fraction_adapter.md R157). -/
theorem adapted_widePattern_of_le {fracBits : Nat} {n : Int} (h : n ≤ -(fracBits : Int)) {f : Nat} (hf : f < 2 ^ 52) :
    adapted fracBits (widePattern n f) = 0 := by
  refine adapted_eq_zero ?_
  rw [widePattern_of_subnormal (by omega), Nat.div_lt_iff_lt_mul (by positivity), ← pow_add]
  calc f + 2 ^ 52 < 2 ^ 53 := by omega
    _ ≤ 2 ^ (52 - fracBits + (1 - n).toNat) := Nat.pow_le_pow_right (by decide) (by omega)

end Sys2Proof.Machine

namespace Sys2Proof

open Sys2Proof.Machine Sys2Proof.Spec

/-- Settles O26: the result is the packed accumulator, and its fields are those of the table. -/
theorem encodeFollowsTheCaseTable : Obligations.EncodeFollowsTheCaseTable :=
  fun val _ _ s h hp => ⟨_, answers_packed_of_decided s h hp, packed_toNat_eq_encoded val h⟩

/-- Settles O25: case 3c is `adapted` of the shifted significand; below 52 bits two divisions by powers of 2 compose. -/
theorem subnormalStagesCompose : Obligations.SubnormalStagesCompose := by
  intro val totBits expBits s h hn hlo hhi
  have hpow : (0 : Int) < 2 ^ expBits.toNat := by positivity
  have hgives := gives_adapted_widePattern s h hn (by omega)
  refine ⟨fun hnarrow => ?_, fun hwide => ?_, fun hlast => ?_⟩
  · have hshift : (1 - ne0 expBits.toNat (exponent val)).toNat + (52 - fracBits totBits expBits)
        = (53 - ne0 expBits.toNat (exponent val) - (fracBits totBits expBits : Int)).toNat := by omega
    rwa [widePattern_of_subnormal hhi, adapted_of_narrow _ hnarrow, Nat.div_div_eq_div_mul, ← pow_add, hshift] at hgives
  · rwa [widePattern_of_subnormal hhi, adapted_of_wide _ hwide.le] at hgives
  · rwa [adapted_widePattern_of_le hlast.le (fraction_lt val), Nat.add_zero] at hgives

/-- Settles O27: the exponent does not fit, so the response is the draw. -/
theorem anyPackingDrawsTheWholeResult : Obligations.AnyPackingDrawsTheWholeResult := by
  intro val totBits expBits s h hany hsub hexp
  rw [Answers, exec, execEncode, respond_of_unfit _ _ h (stage1_not_expFits hsub hexp) hany]

/-- Settles O29: a lawful response is no InvalidBitRange, and no response depends on P_BITRANGE. -/
theorem bitRangeNeverReachesEncode : Obligations.BitRangeNeverReachesEncode := by
  rintro val totBits expBits pack s rfl
  refine ⟨_, answers_respond val totBits expBits s, fun pos width hrsp => ?_, fun mode => ?_⟩
  · have hlawful := respond_lawful s.params (Config.freeResult s.draws) val totBits expBits
    rw [hrsp] at hlawful
    exact hlawful
  · exact respond_congr (params := ⟨_, mode⟩) (params' := s.params) rfl _ val totBits expBits

/-- Settles O30: nothing is written at or above the window. -/
theorem bitsAboveTheWindowAreZero : Obligations.BitsAboveTheWindowAreZero :=
  fun val _ _ s h hp => ⟨_, answers_packed_of_decided s h hp, fun _ hj => packed_getLsbD_above val h hj⟩

/-- Settles O31: the first write puts bit 63 at the top of the window, and the others stay below it. -/
theorem signPassesThrough : Obligations.SignPassesThrough :=
  fun val _ _ s h hp => ⟨_, answers_packed_of_decided s h hp, packed_getLsbD_sign val h⟩

/-- Settles O32: of the parameters only P_SUBNORM_EXP_PACK has a part in the response, and under `masked` no draw has. -/
theorem responseDependsOnTheRequestAlone : Obligations.ResponseDependsOnTheRequestAlone := by
  intro val totBits expBits
  refine ⟨respond Params.default 0 val totBits expBits, fun s hmasked => ?_⟩
  rw [← respond_congr (params := s.params) hmasked, respond_draw_of_masked hmasked 0 (Config.freeResult s.draws)]
  exact answers_respond val totBits expBits s

/-- Settles O33: at (64, 11) the table gives the input's own fields; a NaN becomes the canonical one. -/
theorem binary64ShapedFormatIsIdentity : Obligations.Binary64ShapedFormatIsIdentity := by
  intro val s
  have hgives : Gives val 64 11 s (encoded val 64 11) :=
    encodeFollowsTheCaseTable val 64 11 s (by decide) (.inr (.inr (by decide)))
  refine ⟨fun hsub hnan => ?_, fun hsub => ?_, fun he hf => ?_⟩
  · exact answers_of_gives (encoded_binary64 hsub hnan ▸ hgives)
  · exact encoded_binary64_of_subnormal hsub ▸ hgives
  · have hnumber : sign val * 2 ^ 63 + (2 ^ 63 - 1) = sign val * 2 ^ 63 + (2 ^ 11 - 1) * 2 ^ 52 + (2 ^ 52 - 1) := by
      omega
    obtain ⟨-, hcanonical, -⟩ := nanIsCanonical
    rw [hnumber]
    exact hcanonical val 64 11 s (by decide) he hf

end Sys2Proof
end

section
/-! What an in-range normal's result reads as (spec/30_encoding.md R65, spec/41_exponent_rebias.md R133,
spec/42_fraction_adapter.md R156, spec/95_test_vectors.md Property 4): the fields of the packed accumulator read back, and the
adapted fraction as a number between the input's and one unit of the last place below. -/

namespace Sys2Proof.Machine

open Sys2Proof.Spec

/-- The three fields of a pattern, from the place values of R174. -/
theorem place_values {S E F fracBits expBits : Nat} (hE : E < 2 ^ expBits) (hF : F < 2 ^ fracBits) :
    (S * 2 ^ (fracBits + expBits) + E * 2 ^ fracBits + F) / 2 ^ fracBits % 2 ^ expBits = E ∧
      (S * 2 ^ (fracBits + expBits) + E * 2 ^ fracBits + F) % 2 ^ fracBits = F := by
  have hsum : S * 2 ^ (fracBits + expBits) + E * 2 ^ fracBits + F = F + (E + S * 2 ^ expBits) * 2 ^ fracBits := by
    rw [pow_add]
    ring
  constructor
  · rw [hsum, Nat.add_mul_div_right _ _ (by positivity), Nat.div_eq_of_lt hF, Nat.zero_add, Nat.add_mul_mod_self_right,
      Nat.mod_eq_of_lt hE]
  · rw [hsum, Nat.add_mul_mod_self_right, Nat.mod_eq_of_lt hF]

section
variable {val : Word} {totBits expBits : Byte} (h : DescriptorLegal totBits.toNat expBits.toNat)
include h

theorem packed_fields :
    floatxExp totBits.toNat expBits.toNat (packed val totBits expBits) =
        packExp (stage1 val totBits expBits).newExp expBits.toNat ∧
      floatxFrac totBits.toNat expBits.toNat (packed val totBits expBits) = (stage2 val totBits expBits).toNat := by
  obtain ⟨-, -, -, -, -, hfrac, hsum⟩ := h.bounds
  have hvalue := packed_toNat val h
  have htop : totBits.toNat - 1 = fracBitsOf totBits.toNat expBits.toNat + expBits.toNat := by omega
  have hplaces := place_values (S := sign val) (packExp_lt (stage1 val totBits expBits).newExp expBits.toNat)
    (adapt_lt (stage1 val totBits expBits).fw (stage1 val totBits expBits).isNan hfrac)
  rw [htop] at hvalue
  rw [floatxExp, floatxFrac, hvalue, Nat.shiftRight_eq_div_pow]
  exact hplaces

/-- A normal input in range reads back with exponent `ne0` and its adapted fraction. -/
theorem packed_fields_of_inRange (hn : Normal val) (h1 : 1 ≤ ne0 expBits.toNat (exponent val))
    (h2 : ne0 expBits.toNat (exponent val) ≤ 2 ^ expBits.toNat - 1) :
    (floatxExp totBits.toNat expBits.toNat (packed val totBits expBits) : Int) = ne0 expBits.toNat (exponent val) ∧
      floatxFrac totBits.toNat expBits.toNat (packed val totBits expBits)
        = adapted (fracBits totBits expBits) (fraction val) := by
  obtain ⟨hexp, hfrac⟩ := packed_fields (val := val) h
  obtain ⟨texp, tfrac⟩ := stagesFollowTable_of_normal h hn
  obtain ⟨hE, hF⟩ := fields_of_inRange (f := fraction val) (fracBits totBits expBits) hn.1 hn.2 h1 h2
  rw [hexp, hfrac, texp, tfrac, hE, hF, Int.toNat_of_nonneg (by omega)]
  exact ⟨rfl, rfl⟩

theorem answers_packed_of_normal (s : State) (hn : Normal val) :
    Answers val totBits expBits s (.result (packed val totBits expBits)) :=
  answers_packed_of_decided s h (.inr (.inl fun hsub => by have := hn.1; have := hsub.1; omega))

end

/-! A binary64 pattern read as the format (64, 11) has its own fields (30_encoding.md R60, R62). -/

theorem floatxExp_binary64 (val : Word) : floatxExp 64 11 val = exponent val := by
  rw [floatxExp, Nat.shiftRight_eq_div_pow]
  rfl

theorem floatxFrac_binary64 (val : Word) : floatxFrac 64 11 val = fraction val := rfl

theorem floatxSign_packed (val : Word) {totBits expBits : Byte} (h : DescriptorLegal totBits.toNat expBits.toNat) :
    floatxSign totBits.toNat (packed val totBits expBits) = val.getLsbD 63 :=
  packed_getLsbD_sign val h

/-- The magnitude of a normal pattern (30_encoding.md R65). -/
theorem floatxMagnitude_of_normal {totBits expBits : Nat} {w : Word} (h : floatxExp totBits expBits w ≠ 0) :
    floatxMagnitude totBits expBits w =
      (1 + (floatxFrac totBits expBits w : ℚ) / 2 ^ fracBitsOf totBits expBits) *
        2 ^ ((floatxExp totBits expBits w : Int) - (biasOf expBits : Int)) :=
  if_neg h

theorem floatxMagnitude_binary64 {val : Word} (hn : Normal val) :
    floatxMagnitude 64 11 val = (1 + (fraction val : ℚ) / 2 ^ 52) * 2 ^ ((exponent val : Int) - 1023) := by
  rw [floatxMagnitude_of_normal (by rw [floatxExp_binary64]; have := hn.1; omega), floatxExp_binary64,
    floatxFrac_binary64]
  rfl

/-- Taking the bias off `ne0` gives the input's own exponent (41_exponent_rebias.md R126). -/
theorem ne0_sub_bias (expBits e : Nat) : ne0 expBits e - (biasOf expBits : Int) = (e : Int) - 1023 := by
  rw [ne0, biasOf_cast]
  ring

theorem floatxMagnitude_packed {val : Word} {totBits expBits : Byte} (h : DescriptorLegal totBits.toNat expBits.toNat)
    (hn : Normal val) (h1 : 1 ≤ ne0 expBits.toNat (exponent val))
    (h2 : ne0 expBits.toNat (exponent val) ≤ 2 ^ expBits.toNat - 1) :
    floatxMagnitude totBits.toNat expBits.toNat (packed val totBits expBits) =
      (1 + (adapted (fracBits totBits expBits) (fraction val) : ℚ) / 2 ^ fracBits totBits expBits) *
        2 ^ ((exponent val : Int) - 1023) := by
  obtain ⟨hexp, hfrac⟩ := packed_fields_of_inRange h hn h1 h2
  rw [floatxMagnitude_of_normal (by omega), hexp, hfrac, ne0_sub_bias]
  rfl

/-! The adapted fraction as a fraction of one (42_fraction_adapter.md R151, R152, R156). -/

/-- What ADAPT drops of a fraction, at the input's last place, is less than the target's last place. -/
theorem dropped_lt (fracBits f : Nat) : f % 2 ^ (52 - fracBits) * 2 ^ fracBits < 2 ^ 52 := by
  rcases le_or_gt fracBits 52 with hnarrow | hwide
  · calc f % 2 ^ (52 - fracBits) * 2 ^ fracBits < 2 ^ (52 - fracBits) * 2 ^ fracBits := by
          gcongr
          exact Nat.mod_lt _ (by positivity)
      _ = 2 ^ 52 := by rw [← pow_add, Nat.sub_add_cancel hnarrow]
  · rw [Nat.sub_eq_zero_of_le hwide.le, pow_zero, Nat.mod_one, Nat.zero_mul]
    positivity

theorem adapted_add_dropped (fracBits f : Nat) :
    adapted fracBits f * 2 ^ 52 + f % 2 ^ (52 - fracBits) * 2 ^ fracBits = f * 2 ^ fracBits := by
  rcases lt_or_ge fracBits 52 with hnarrow | hwide
  · have hpow : 2 ^ 52 = 2 ^ (52 - fracBits) * 2 ^ fracBits := by rw [← pow_add, Nat.sub_add_cancel hnarrow.le]
    rw [adapted_of_narrow _ hnarrow, hpow, ← mul_assoc, ← add_mul, Nat.div_add_mod']
  · rw [adapted_of_wide _ hwide, Nat.sub_eq_zero_of_le hwide, pow_zero, Nat.mod_one, Nat.zero_mul, Nat.add_zero, mul_assoc,
      ← pow_add, Nat.sub_add_cancel hwide]

theorem fraction_eq_adapted_add (fracBits f : Nat) :
    (f : ℚ) / 2 ^ 52 = (adapted fracBits f : ℚ) / 2 ^ fracBits + (f % 2 ^ (52 - fracBits) : Nat) / 2 ^ 52 := by
  have hsplit : (adapted fracBits f : ℚ) * 2 ^ 52 + (f % 2 ^ (52 - fracBits) : Nat) * 2 ^ fracBits = f * 2 ^ fracBits := by
    exact_mod_cast adapted_add_dropped fracBits f
  field_simp
  linarith

theorem dropped_lt_lastPlace (fracBits f : Nat) :
    ((f % 2 ^ (52 - fracBits) : Nat) : ℚ) / 2 ^ 52 < 2 ^ (-(fracBits : Int)) := by
  have hlt : ((f % 2 ^ (52 - fracBits) : Nat) : ℚ) * 2 ^ fracBits < 2 ^ 52 := by exact_mod_cast dropped_lt fracBits f
  rw [zpow_neg, zpow_natCast, ← one_div, div_lt_div_iff₀ (by positivity) (by positivity)]
  linarith

end Sys2Proof.Machine

namespace Sys2Proof

open Sys2Proof.Machine Sys2Proof.Spec

/-- Settles O34: with nothing dropped the two fractions are equal, and the exponents are after the bias is off. -/
theorem exactNormalsRoundTrip : Obligations.ExactNormalsRoundTrip := by
  intro val totBits expBits s h hn h1 h2 hexact
  have hmag : floatxMagnitude totBits.toNat expBits.toNat (packed val totBits expBits) = floatxMagnitude 64 11 val := by
    rw [floatxMagnitude_packed h hn h1 (by omega), floatxMagnitude_binary64 hn,
      fraction_eq_adapted_add (fracBits totBits expBits), hexact, Nat.cast_zero, zero_div, add_zero]
  obtain ⟨hexp, -⟩ := packed_fields_of_inRange h hn h1 (by omega)
  have hfinite : floatxExp totBits.toNat expBits.toNat (packed val totBits expBits) ≠ maxExpOf expBits.toNat := by
    have hmax := maxExpOf_cast expBits.toNat
    omega
  have hfinite64 : floatxExp 64 11 val ≠ maxExpOf 11 := by
    rw [floatxExp_binary64, maxExpOf]
    have := hn.2
    omega
  refine ⟨_, answers_packed_of_normal h s hn, ?_⟩
  rw [readBinary64, readFloatx, readFloatx, if_neg hfinite, if_neg hfinite64, floatxSign_packed val h, hmag]
  rfl

/-- Settles O35: the magnitudes differ by what ADAPT drops, at the input's exponent. -/
theorem normalsTruncateTowardZero : Obligations.NormalsTruncateTowardZero := by
  intro val totBits expBits s h hn h1 h2
  have hscale : (0 : ℚ) < 2 ^ ((exponent val : Int) - 1023) := by positivity
  have hdropped := dropped_lt_lastPlace (fracBits totBits expBits) (fraction val)
  have hdiff : floatxMagnitude 64 11 val - floatxMagnitude totBits.toNat expBits.toNat (packed val totBits expBits) =
      (fraction val % 2 ^ (52 - fracBits totBits expBits) : Nat) / 2 ^ 52 * 2 ^ ((exponent val : Int) - 1023) := by
    rw [floatxMagnitude_packed h hn h1 (by omega), floatxMagnitude_binary64 hn,
      fraction_eq_adapted_add (fracBits totBits expBits)]
    ring
  refine ⟨_, answers_packed_of_normal h s hn, floatxSign_packed val h, ?_, ?_⟩
  · rw [← sub_nonneg, hdiff]
    positivity
  · rw [hdiff, sub_eq_neg_add _ (fracBits totBits expBits : Int), zpow_add₀ (by norm_num)]
    exact mul_lt_mul_of_pos_right hdropped hscale

/-- Settles O36: the exponent field is all ones, so the adapted fraction decides. -/
theorem largestExponentReadsAsInfinityOrNan : Obligations.LargestExponentReadsAsInfinityOrNan := by
  intro val totBits expBits s h hn hne
  obtain ⟨-, -, hexpBits, -⟩ := h.bounds
  have hpow : (2 : Int) ^ 1 ≤ 2 ^ expBits.toNat := pow_le_pow_right₀ (by decide) hexpBits
  obtain ⟨hexp, hfrac⟩ := packed_fields_of_inRange h hn (by omega) hne.le
  have hmax : floatxExp totBits.toNat expBits.toNat (packed val totBits expBits) = maxExpOf expBits.toNat := by
    zify
    rw [hexp, hne, maxExpOf_cast]
  refine ⟨_, answers_packed_of_normal h s hn, ?_⟩
  rw [readFloatx, if_pos hmax, hfrac, floatxSign_packed val h]

end Sys2Proof
end
